-- ==== Sys2Proof/Word.lean ====
section
/-! DEFINITION. The word types of the machine: bytes, 64-bit register values, 256-bit SIMD words, 64-byte blocks. -/

namespace Sys2Proof

/-- A byte, an unsigned integer 0..255 (R11). -/
abbrev Byte := BitVec 8

/-- A 64-bit quantity: an operand register, a host register access, a data-memory address (R8: XLEN = ALEN = 64). -/
abbrev Word := BitVec 64

/-- One 256-bit word of a transposed state (R7: WORDBITS = 256); word r holds row r of all four lanes (R23). -/
abbrev SimdWord := BitVec 256

/-- The 64 bytes of one lane's block (R7: BLOCKBYTES = 64). -/
abbrev Block := Vector Byte 64

/-- A lane number 0..3 (R7: NLANES = 4). -/
abbrev Lane := Fin 4

/-- The number of a transposed-state register TS[0..3] (R8: NTS = 4, R22). -/
abbrev TsReg := Fin 4

end Sys2Proof
end

