-- ==== Sys2Proof/Syntax.lean ====
section
/-! DEFINITION. The eighteen commands, one constructor per row of spec/opcode_table.json (R73). -/

namespace Sys2Proof

/-- A command with its fields (R71, R72). `d`, `s`, `t` are the D, S and T fields, `rnd` the RND field as it stands in the
word (legal values 0..9, R75: see WellFormed). -/
inductive Instr where
  | reset
  | update
  | final
  | finalr
  | digest
  | pack (d : TsReg)
  | unpack (s : TsReg)
  | arcp (d s : TsReg) (rnd : BitVec 4)
  | arcq (d s : TsReg) (rnd : BitVec 4)
  | subb (d s : TsReg)
  | shbp (d s : TsReg)
  | shbq (d s : TsReg)
  | mixb (d s : TsReg)
  | xors (d s t : TsReg)
  | permp (d s : TsReg)
  | permq (d s : TsReg)
  | cmpr (d s t : TsReg)
  | outx (d s : TsReg)
  deriving DecidableEq, Repr

end Sys2Proof
end

