-- ==== Sys2Proof/WellFormed.lean ====
section
/-! DEFINITION. Which commands are legal as syntax. -/

namespace Sys2Proof

/-- RND is legal: 0..9 (R75). -/
def legalRound (rnd : BitVec 4) : Bool := decide (rnd.toNat ≤ 9)

/-- The one check a command's fields can fail (R75): register fields are 2 bits, so every value names a register (R71). -/
def Instr.wellFormed : Instr → Bool
  | .reset => true
  | .update => true
  | .final => true
  | .finalr => true
  | .digest => true
  | .pack _ => true
  | .unpack _ => true
  | .arcp _ _ rnd => legalRound rnd
  | .arcq _ _ rnd => legalRound rnd
  | .subb _ _ => true
  | .shbp _ _ => true
  | .shbq _ _ => true
  | .mixb _ _ => true
  | .xors _ _ _ => true
  | .permp _ _ => true
  | .permq _ _ => true
  | .cmpr _ _ _ => true
  | .outx _ _ => true

end Sys2Proof
end

