-- ==== Sys2Proof/Decode.lean ====
section
/-! DEFINITION. The command decoder, total on every 64-bit value written to CMD (R76), and the encoder (R71 to R73). -/

namespace Sys2Proof

/-- Why a value written to CMD is not a legal command (R77). The engine tells none of these apart: each raises E_ILLEGAL. -/
inductive Reject where
  | upperHalf                    -- bits 63:32 are not zero (R70)
  | reservedBits                 -- bits 15:14 or 31:20 are not zero (R74)
  | unknownOpcode (op : Byte)    -- no row of R73 has this opcode
  | unusedField                  -- a field the format does not use is not zero (R74)
  | roundIndex                   -- RND > 9 (R75)
  deriving DecidableEq, Repr

/-- The fields of a command word (R71). -/
structure Fields where
  op : Byte
  d : TsReg
  s : TsReg
  t : TsReg
  rnd : BitVec 4
  deriving DecidableEq, Repr

/-- Pulls the fields out of a value written to CMD (R71). -/
def fieldsOf (v : Word) : Fields where
  op := v.extractLsb' 0 8
  d := (v.extractLsb' 8 2).toFin
  s := (v.extractLsb' 10 2).toFin
  t := (v.extractLsb' 12 2).toFin
  rnd := v.extractLsb' 16 4

/-- Format F0 (R72): no field used. -/
def Fields.f0 (f : Fields) (i : Instr) : Except Reject Instr :=
  if f.d = 0 ∧ f.s = 0 ∧ f.t = 0 ∧ f.rnd = 0#4 then .ok i else .error .unusedField

/-- Format FD (R72): D used. -/
def Fields.fd (f : Fields) (i : TsReg → Instr) : Except Reject Instr :=
  if f.s = 0 ∧ f.t = 0 ∧ f.rnd = 0#4 then .ok (i f.d) else .error .unusedField

/-- Format FS (R72): S used. -/
def Fields.fs (f : Fields) (i : TsReg → Instr) : Except Reject Instr :=
  if f.d = 0 ∧ f.t = 0 ∧ f.rnd = 0#4 then .ok (i f.s) else .error .unusedField

/-- Format FDS (R72): D and S used. -/
def Fields.fds (f : Fields) (i : TsReg → TsReg → Instr) : Except Reject Instr :=
  if f.t = 0 ∧ f.rnd = 0#4 then .ok (i f.d f.s) else .error .unusedField

/-- Format FDST (R72): D, S and T used. -/
def Fields.fdst (f : Fields) (i : TsReg → TsReg → TsReg → Instr) : Except Reject Instr :=
  if f.rnd = 0#4 then .ok (i f.d f.s f.t) else .error .unusedField

/-- Format FDSR (R72): D, S and RND used, RND legal only up to 9 (R75). -/
def Fields.fdsr (f : Fields) (i : TsReg → TsReg → BitVec 4 → Instr) : Except Reject Instr :=
  if f.t = 0 then
    if legalRound f.rnd then .ok (i f.d f.s f.rnd) else .error .roundIndex
  else .error .unusedField

/-- The opcode map (R73): the command of an opcode, read in its format. -/
def Fields.command (f : Fields) : Except Reject Instr :=
  match f.op.toNat with
  | 0x01 => f.f0 .reset
  | 0x02 => f.f0 .update
  | 0x03 => f.f0 .final
  | 0x04 => f.f0 .finalr
  | 0x05 => f.f0 .digest
  | 0x10 => f.fd .pack
  | 0x11 => f.fs .unpack
  | 0x20 => f.fdsr .arcp
  | 0x21 => f.fdsr .arcq
  | 0x22 => f.fds .subb
  | 0x23 => f.fds .shbp
  | 0x24 => f.fds .shbq
  | 0x25 => f.fds .mixb
  | 0x26 => f.fdst .xors
  | 0x30 => f.fds .permp
  | 0x31 => f.fds .permq
  | 0x38 => f.fdst .cmpr
  | 0x39 => f.fds .outx
  | _ => .error (.unknownOpcode f.op)

/-- The decoder (R76): the checks in the rule's order, after the engine has found FAULT = 0 (that check is in Ops). -/
def decode (v : Word) : Except Reject Instr :=
  if v.extractLsb' 32 32 ≠ 0#32 then .error .upperHalf
  else if v.extractLsb' 14 2 ≠ 0#2 ∨ v.extractLsb' 20 12 ≠ 0#12 then .error .reservedBits
  else (fieldsOf v).command

/-- A command word from its fields (R71): the fields do not overlap, so their sum is their bitwise or. -/
def assemble (op : Nat) (d s t : TsReg) (rnd : BitVec 4) : Word :=
  BitVec.ofNat 64 (op + d.val * 2 ^ 8 + s.val * 2 ^ 10 + t.val * 2 ^ 12 + rnd.toNat * 2 ^ 16)

/-- The encoder (R72, R73): the value the host writes to CMD for a command; every field not used is zero (R74). -/
def encode : Instr → Word
  | .reset => assemble 0x01 0 0 0 0#4
  | .update => assemble 0x02 0 0 0 0#4
  | .final => assemble 0x03 0 0 0 0#4
  | .finalr => assemble 0x04 0 0 0 0#4
  | .digest => assemble 0x05 0 0 0 0#4
  | .pack d => assemble 0x10 d 0 0 0#4
  | .unpack s => assemble 0x11 0 s 0 0#4
  | .arcp d s rnd => assemble 0x20 d s 0 rnd
  | .arcq d s rnd => assemble 0x21 d s 0 rnd
  | .subb d s => assemble 0x22 d s 0 0#4
  | .shbp d s => assemble 0x23 d s 0 0#4
  | .shbq d s => assemble 0x24 d s 0 0#4
  | .mixb d s => assemble 0x25 d s 0 0#4
  | .xors d s t => assemble 0x26 d s t 0#4
  | .permp d s => assemble 0x30 d s 0 0#4
  | .permq d s => assemble 0x31 d s 0 0#4
  | .cmpr d s t => assemble 0x38 d s t 0#4
  | .outx d s => assemble 0x39 d s 0 0#4

/-- The decoder's answer on a row of spec/opcode_table.json: the value written to CMD has `w` in its low `nbits` bits and
zeros above. -/
def decodeTableWord (nbits w : Nat) : Option Instr :=
  match decode (BitVec.ofNat 64 (w % 2 ^ nbits)) with
  | .ok i => some i
  | .error _ => none

end Sys2Proof
end

