-- ==== Sys2Proof/Config.lean ====
section
/-! DEFINITION. The parameters the spec fixes by name, and the free values: constants with no body that stand for what the
spec leaves unspecified. A statement that holds of the model holds for every value of a free constant. -/

namespace Sys2Proof

/-- ROUNDS: rounds of P and of Q (R7). -/
abbrev Config.rounds : Nat := 10

/-- PADMARK: the first padding byte (R7). -/
abbrev Config.padMark : Byte := 0x80#8

/-- PADTHRESH: the unfinished byte count from which padding needs two blocks (R7). -/
abbrev Config.padThreshold : Nat := 56

/-- FIELDPOLY: the GF(2^8) reduction polynomial x^8+x^4+x^3+x+1 (R8, R14). -/
abbrev Config.fieldPoly : BitVec 9 := 0x11B#9

/-- Free value (log 6): word `i` of the unspecified contents of TS register `k` at draw `n` (R185 b, R200). -/
opaque Config.freeSimd (n : Nat) (k : TsReg) (i : Fin 8) : SimdWord

/-- Free value (log 6): the unspecified operand register x[i] after the hardware reset of draw `n` (R200). -/
opaque Config.freeOperand (n : Nat) (i : Fin 9) : Word

/-- Free value (log 6): byte `i` of lane `l`'s buffer row after the E_BUS of draw `n` (R185 b). -/
opaque Config.freeBuf (n : Nat) (l : Lane) (i : Fin 64) : Byte

/-- Free value (log 6): FILL after the E_BUS of draw `n`, within 0..63 (R185 b). -/
opaque Config.freeFill (n : Nat) : Fin 64

/-- Free value (log 6): BLKCNT after the E_BUS of draw `n` (R185 b). -/
opaque Config.freeBlkcnt (n : Nat) : Word

/-- Free value (log 6): FIN after the E_BUS of draw `n` (R185 b). -/
opaque Config.freeFin (n : Nat) : Bool

/-- Free value (log 6): LSKIP after the E_BUS of draw `n` (R185 b). -/
opaque Config.freeLskip (n : Nat) : BitVec 4

/-- Free value (log 8): whether the `i`-th store of the command broken off at draw `n` has happened (R185 b, R200). -/
opaque Config.freeTaken (n : Nat) (i : Nat) : Bool

/-- Free value (log 12): byte `i` answered at draw `n` to a bus read that reaches no register of the engine. -/
opaque Config.freeBus (n : Nat) (i : Fin 8) : Byte

/-- Free value (log 9): the `i`-th digest byte of a DIGEST at draw `n` one of whose source bytes is not readable (R185 b). -/
opaque Config.freeDigest (n : Nat) (i : Nat) : Byte

end Sys2Proof
end

