-- ==== Sys2Proof/Machine/Bytes.lean ====
section
/-! DEFINITION. Bytes inside words: the byte view of a 256-bit word and the bytes of a 64-bit value (R11). -/

namespace Sys2Proof.Machine

/-- Byte `j` of a 256-bit word: bits [8j+7 : 8j] (R11). -/
def byteOf (w : SimdWord) (j : Nat) : Byte := w.extractLsb' (8 * j) 8

/-- The word whose byte `j` is `g j` for `j < n`, every other byte zero. -/
def ofBytesUpTo (g : Nat → Byte) : Nat → SimdWord
  | 0 => 0#256
  | n + 1 => ofBytesUpTo g n ||| ((g n).setWidth 256 <<< (8 * n))

/-- The 256-bit word whose byte `j` is `g j`, for j = 0..31 (R11). -/
def ofBytes (g : Nat → Byte) : SimdWord := ofBytesUpTo g 32

/-- Byte `i` (0..7) of `be64(v)`: bits [63-8i : 56-8i] of `v`, most significant byte first (R11). -/
def be64 (v : Word) (i : Nat) : Byte := v.extractLsb' (56 - 8 * i) 8

/-- The 64-bit value whose byte of weight 256^i is `b i`, for i = 0..7. -/
def word64 (b : Fin 8 → Byte) : Word := b 7 ++ b 6 ++ b 5 ++ b 4 ++ b 3 ++ b 2 ++ b 1 ++ b 0

end Sys2Proof.Machine
end

