-- ==== Sys2Proof/Machine/Galois.lean ====
section
/-! DEFINITION. GF(2^8) arithmetic (R14), on one byte and on the 32 bytes of a word at once, and the S-box (R105). -/

namespace Sys2Proof.Machine

/-- The doubling `a * 0x02` of R14: shift left into nine bits and reduce by 0x11B if bit 8 is set. -/
def xtime (a : Byte) : Byte :=
  let t : BitVec 9 := a.setWidth 9 <<< 1
  (if t.getLsbD 8 then t ^^^ Config.fieldPoly else t).setWidth 8

/-- `a * 0x02^k`: the doubling applied `k` times. -/
def xtimeIter : Nat → Byte → Byte
  | 0, a => a
  | k + 1, a => xtime (xtimeIter k a)

/-- The sum over the bits k < n that are set in `a` of `b * x^k`. -/
def gmulUpTo (a b : Byte) : Nat → Byte
  | 0 => 0#8
  | n + 1 => gmulUpTo a b n ^^^ (if a.getLsbD n then xtimeIter n b else 0#8)

/-- Multiplication in GF(2^8) (R14): polynomial multiplication reduced modulo 0x11B. -/
def gmul (a b : Byte) : Byte := gmulUpTo a b 8

/-- `a^(2^k)` in GF(2^8): k squarings. -/
def squareIter : Nat → Byte → Byte
  | 0, a => a
  | k + 1, a => gmul (squareIter k a) (squareIter k a)

/-- The product of `a^(2^k)` over k = 1..n. -/
def squaresUpTo (a : Byte) : Nat → Byte
  | 0 => 1#8
  | n + 1 => gmul (squaresUpTo a n) (squareIter (n + 1) a)

/-- The multiplicative inverse, with `inv 0 = 0` (R14): a^254 = a^2 * a^4 * ... * a^128, since a^255 = 1 for every a that is
not 0. -/
def inv (a : Byte) : Byte := squaresUpTo a 7

/-- The S-box as R105's formula gives it: inversion, then the affine map with constant 0x63. -/
def sboxFormula (a : Byte) : Byte :=
  let y := inv a
  y ^^^ y.rotateLeft 1 ^^^ y.rotateLeft 2 ^^^ y.rotateLeft 3 ^^^ y.rotateLeft 4 ^^^ 0x63#8

/-- The sixteen rows of R105's table: row hi, byte lo counted from the left, is SBOX[16*hi + lo]. -/
def sboxRows : List (BitVec 128) :=
  [0x637c777bf26b6fc53001672bfed7ab76#128,
   0xca82c97dfa5947f0add4a2af9ca472c0#128,
   0xb7fd9326363ff7cc34a5e5f171d83115#128,
   0x04c723c31896059a071280e2eb27b275#128,
   0x09832c1a1b6e5aa0523bd6b329e32f84#128,
   0x53d100ed20fcb15b6acbbe394a4c58cf#128,
   0xd0efaafb434d338545f9027f503c9fa8#128,
   0x51a3408f929d38f5bcb6da2110fff3d2#128,
   0xcd0c13ec5f974417c4a77e3d645d1973#128,
   0x60814fdc222a908846eeb814de5e0bdb#128,
   0xe0323a0a4906245cc2d3ac629195e479#128,
   0xe7c8376d8dd54ea96c56f4ea657aae08#128,
   0xba78252e1ca6b4c6e8dd741f4bbd8b8a#128,
   0x703eb5664803f60e613557b986c11d9e#128,
   0xe1f8981169d98e949b1e87e9ce5528df#128,
   0x8ca1890dbfe6426841992d0fb054bb16#128]

/-- SBOX[a] (R105); the table governs. -/
def sbox (a : Byte) : Byte :=
  (sboxRows.getD (a.toNat / 16) 0#128).extractLsb' (8 * (15 - a.toNat % 16)) 8

/-- The doubling of every byte of a word at once: bits 7 of the bytes select where 0x1B (bits 0, 1, 3 and 4) is added. -/
def xtimeWord (w : SimdWord) : SimdWord :=
  let top := (w >>> 7) &&& 0x0101010101010101010101010101010101010101010101010101010101010101#256
  ((w <<< 1) &&& 0xfefefefefefefefefefefefefefefefefefefefefefefefefefefefefefefefe#256)
    ^^^ top ^^^ (top <<< 1) ^^^ (top <<< 3) ^^^ (top <<< 4)

/-- `xtimeWord` applied `k` times. -/
def xtimeWordIter : Nat → SimdWord → SimdWord
  | 0, w => w
  | k + 1, w => xtimeWord (xtimeWordIter k w)

/-- The sum over the bits k < n that are set in `c` of every byte of `w` times x^k. -/
def gmulWordUpTo (c : Byte) (w : SimdWord) : Nat → SimdWord
  | 0 => 0#256
  | n + 1 => gmulWordUpTo c w n ^^^ (if c.getLsbD n then xtimeWordIter n w else 0#256)

/-- Every byte of `w` multiplied by `c` in GF(2^8) (R111: "byte position by byte position, all four lanes at once"). -/
def gmulWord (c : Byte) (w : SimdWord) : SimdWord := gmulWordUpTo c w 8

end Sys2Proof.Machine
end

