-- ==== Sys2Proof/Machine/Lanes.lean ====
section
/-! DEFINITION. Transposed states (R15, R22 to R24), the initial value (R26), and the transposition of four 64-byte blocks
(R90 to R92). -/

namespace Sys2Proof.Machine

/-- A transposed state: eight 256-bit words, word r holding row r of all four lanes (R22, R23). -/
structure TState where
  words : Vector SimdWord 8
  deriving DecidableEq, Repr

/-- Word r: `TS[k].W[r]` (R22). -/
def TState.word (S : TState) (r : Fin 8) : SimdWord := S.words[r]

/-- The state with the given words. -/
def TState.ofWords (f : Fin 8 → SimdWord) : TState := ⟨#v[f 0, f 1, f 2, f 3, f 4, f 5, f 6, f 7]⟩

/-- The matrix element A[l][r][c]: byte 8l + c of word r (R24). -/
def TState.at (S : TState) (l : Lane) (r c : Fin 8) : Byte := byteOf (S.word r) (8 * l.val + c.val)

/-- The state whose matrix elements are `A l r c` (R15, R24). -/
def TState.ofMatrix (A : Lane → Fin 8 → Fin 8 → Byte) : TState :=
  .ofWords fun r => ofBytes fun j => A (Fin.ofNat 4 (j / 8)) r (Fin.ofNat 8 (j % 8))

/-- The initial value IV (R26): bytes 7, 15, 23 and 31 of word 6 are 0x01, every other byte is zero. -/
def iv : TState :=
  .ofWords fun r =>
    if r = 6 then 0x0100000000000000010000000000000001000000000000000100000000000000#256 else 0#256

/-- `pack` (R91): block byte 8c + r of lane l is matrix element A[l][r][c] (R90). -/
def pack (b : Vector Block 4) : TState :=
  .ofMatrix fun l r c => (b[l])[8 * c.val + r.val]'(by omega)

/-- Byte k of lane l of `unpack(S)`: the matrix element at row k mod 8, column k div 8 (R90, R92). -/
def unpackByte (S : TState) (l : Lane) (k : Nat) : Byte := S.at l (Fin.ofNat 8 (k % 8)) (Fin.ofNat 8 (k / 8))

/-- `unpack` (R92): the four 64-byte strings of a state. -/
def unpack (S : TState) : Vector Block 4 := Vector.ofFn fun l => Vector.ofFn fun k => unpackByte S l k.val

/-- The state XOR of R114, word by word. -/
def xorState (S S' : TState) : TState := .ofWords fun r => S.word r ^^^ S'.word r

end Sys2Proof.Machine
end

