-- ==== Sys2Proof/Machine/Groestl.lean ====
section
/-! DEFINITION. The functions on transposed states: the round primitives (R101 to R114), the permutations P and Q (R120 to
R123), the compression function (R131) and the output transformation (R134). -/

namespace Sys2Proof.Machine

/-- The constant of column c for round index i, `(16*c) ^ i` (R101), in every lane: what ARCP adds to row 0. -/
def roundConstant (i : Nat) : SimdWord := ofBytes fun j => BitVec.ofNat 8 (16 * (j % 8)) ^^^ BitVec.ofNat 8 i

/-- `ArcP(S, i)` (R101): the round constant is added to row 0 only. -/
def arcP (S : TState) (i : Nat) : TState :=
  .ofWords fun r => if r = 0 then S.word 0 ^^^ roundConstant i else S.word r

/-- The all-ones mask that ARCQ adds to every row (R103). -/
def onesMask : SimdWord := 0xffffffffffffffffffffffffffffffffffffffffffffffffffffffffffffffff#256

/-- `ArcQ(S, i)` (R103): the all-ones mask is added to every row, and the round constant to row 7. -/
def arcQ (S : TState) (i : Nat) : TState :=
  .ofWords fun r => if r = 7 then S.word 7 ^^^ onesMask ^^^ roundConstant i else S.word r ^^^ onesMask

/-- `SubBytes(S)` (R105): the S-box on every byte. -/
def subBytes (S : TState) : TState := .ofWords fun r => ofBytes fun j => sbox (byteOf (S.word r) j)

/-- Every row r of every lane moved to lower columns by `sigma r` (R107, R109): the byte in column c comes from column
(c + sigma r) mod 8 of the same lane. -/
def shiftBytes (sigma : Fin 8 → Nat) (S : TState) : TState :=
  .ofWords fun r => ofBytes fun j => byteOf (S.word r) (8 * (j / 8) + (j % 8 + sigma r) % 8)

/-- The shift vector of P (R107). -/
def sigmaP (r : Fin 8) : Nat := [0, 1, 2, 3, 4, 5, 6, 7].getD r.val 0

/-- The shift vector of Q (R109). -/
def sigmaQ (r : Fin 8) : Nat := [1, 3, 5, 7, 0, 2, 4, 6].getD r.val 0

/-- `ShiftP(S)` (R107). -/
def shiftP (S : TState) : TState := shiftBytes sigmaP S

/-- `ShiftQ(S)` (R109). -/
def shiftQ (S : TState) : TState := shiftBytes sigmaQ S

/-- The MixBytes coefficients circ(02, 02, 03, 04, 05, 03, 05, 07) (R111), index taken modulo 8. -/
def mixCoef (k : Nat) : Byte := [0x02#8, 0x02#8, 0x03#8, 0x04#8, 0x05#8, 0x03#8, 0x05#8, 0x07#8].getD (k % 8) 0#8

/-- The XOR of the first `n` input rows, row j times `coef[(j - i) mod 8]`. -/
def mixRowUpTo (S : TState) (i : Fin 8) : Nat → SimdWord
  | 0 => 0#256
  | n + 1 => mixRowUpTo S i n ^^^ gmulWord (mixCoef (n + 8 - i.val)) (S.word (Fin.ofNat 8 n))

/-- `MixBytes(S)` (R111): each output row is a combination of all eight input rows. -/
def mixBytes (S : TState) : TState := .ofWords fun i => mixRowUpTo S i 8

/-- One round of P (R120). -/
def roundP (S : TState) (i : Nat) : TState := mixBytes (shiftP (subBytes (arcP S i)))

/-- One round of Q (R120). -/
def roundQ (S : TState) (i : Nat) : TState := mixBytes (shiftQ (subBytes (arcQ S i)))

/-- Rounds 0 .. n-1 of P, in order (R121). -/
def roundsP : Nat → TState → TState
  | 0, S => S
  | n + 1, S => roundP (roundsP n S) n

/-- Rounds 0 .. n-1 of Q, in order (R123). -/
def roundsQ : Nat → TState → TState
  | 0, S => S
  | n + 1, S => roundQ (roundsQ n S) n

/-- `P(S)` (R121): exactly ten rounds. -/
def permP (S : TState) : TState := roundsP Config.rounds S

/-- `Q(S)` (R123): exactly ten rounds. -/
def permQ (S : TState) : TState := roundsQ Config.rounds S

/-- `Compress(h, m)` (R131). -/
def compress (h m : TState) : TState := xorState (xorState h (permP (xorState h m))) (permQ m)

/-- `OutX(S)` (R134). -/
def outX (S : TState) : TState := xorState (permP S) S

end Sys2Proof.Machine
end

