-- ==== Sys2Proof/Machine/State.lean ====
section
/-! DEFINITION. The machine's state as plain data (R20), its reset value (R42, R200), and the reasons a step may stop. -/

namespace Sys2Proof.Machine

/-- What register FAULT holds (R180): 0 or one of the four codes; the codes 5..15 are never produced. -/
inductive FaultCode where
  | none       -- 0: engine running
  | illegal    -- 1, E_ILLEGAL: the value written to CMD is not a legal command (R181)
  | phase      -- 2, E_PHASE: the hasher is Finalized (R182)
  | len        -- 3, E_LEN: non-zero lane lengths differ (R183)
  | bus        -- 4, E_BUS: a data-memory byte the command needs is not admitted (R184)
  deriving DecidableEq, Repr

/-- A window of data-memory addresses the platform refuses to the engine: `size` bytes from `base` on (R54, log 4). -/
structure Window where
  base : Nat
  size : Nat
  deriving DecidableEq, Repr

/-- How the host reaches register number n, an open parameter of the platform (R9: REGBASE and register transport; log 12). -/
inductive Transport where
  /-- The host names the register number itself, as over a coprocessor port; no bus address reaches a register. -/
  | port
  /-- A memory-mapped window: the registers 0 .. count-1, number n at bus address regbase + stride * n (R36 suggests 8 for
  the stride). -/
  | mapped (regbase : Word) (stride : Nat) (count : Nat)
  deriving DecidableEq, Repr

/-- How a 64-bit register access appears on a byte-addressed host bus, an open parameter of the platform (R9, R55 g). -/
inductive ByteOrder where
  | little  -- the least significant byte at the lowest address
  | big     -- the most significant byte at the lowest address
  deriving DecidableEq, Repr

/-- What the outside world does to the engine and its memory, one access at a time, in the order of `State.pending`
(R38, R61, R200; log 2). -/
inductive Access where
  | rd (reg : Nat)               -- the host reads the register with this number (R36)
  | wr (reg : Nat) (v : Word)    -- the host writes it; a write to number 0, CMD, executes a command (R35)
  | busRd (a : Word)                             -- the host reads the 8 bytes at bus address `a` (R9, log 12)
  | busWr (a : Word) (bytes : Vector Byte 8)     -- the host writes 8 bytes, lowest address first, at bus address `a`
  | load (a : Word)              -- the host loads a byte of its data memory (R50, R61)
  | store (a : Word) (b : Byte)  -- the host stores a byte into it
  | hardReset                    -- the reset input is asserted and released between commands (R200)
  | resetDuring (v : Word)       -- it is asserted while the command written as `v` is in progress (R200)
  deriving DecidableEq, Repr

/-- The machine: the architectural state of R20, the host's data memory (R50), the platform's parameters (R9, R54), and
fields of the model's own (`pending`, `returned`, `busData`, `draws`: log 2, log 6, log 12). -/
structure State where
  /-- TS[0..3] (R22); TS[0] is the chaining value H (R25). -/
  ts : Vector TState 4
  /-- BUF[0..3][0..63] (R27). -/
  buf : Vector Block 4
  /-- FILL, 0..63 between commands (R28). -/
  fill : Fin 64
  /-- BLKCNT (R29). -/
  blkcnt : Word
  /-- FIN (R30). -/
  fin : Bool
  /-- LSKIP, bit l for lane l (R31). -/
  lskip : BitVec 4
  /-- FAULT (R32). -/
  fault : FaultCode
  /-- The operand registers x[0..8] (R34). -/
  x : Vector Word 9
  /-- Data memory (R50): the bytes that are not 0x00, by rising address (log 5). -/
  mem : List Host.Cell
  /-- The addresses for which `Readable` is false (R54; log 4). -/
  unreadable : List Window
  /-- The addresses for which `Writable` is false (R54; log 4). -/
  unwritable : List Window
  /-- How the host reaches a register (R9; log 12). -/
  transport : Transport
  /-- The byte order of a register access on the host's bus (R9; log 12). -/
  byteOrder : ByteOrder
  /-- The host accesses the engine has not yet taken, next one first (R38; log 2). -/
  pending : List Access
  /-- What the host's last read was answered with (log 2). -/
  returned : Word
  /-- The 8 bytes the host's last bus read was answered with, lowest address first (log 12). -/
  busData : Vector Byte 8
  /-- How many times free values have been drawn (log 6). -/
  draws : Nat
  deriving DecidableEq, Repr

/-- Why a step stops with a fault. No constructor: every fault of this hardware is a value of register FAULT after which the
machine goes on (R180, R186), so no step of the model stops (safe: nothing is left out by it). -/
inductive Fault where
  deriving DecidableEq, Repr

/-- Why a step is refused. -/
inductive Refusal where
  /-- Raised by an arm of exec whose command has no meaning yet; safe. No arm raises it now. -/
  | notModelled (mnemonic : String)
  deriving DecidableEq, Repr

/-- The machine right after hardware reset (R42, R200). The spec gives TS[1..3] and x[0..8] no value: the model names zero
(DESIGN CHOICE, log 3). Data memory lists nothing (log 5), the platform refuses nothing (log 4), the host reaches
registers by number (log 12), no access is pending (log 2). -/
def State.reset : State where
  ts := #v[iv, .ofWords fun _ => 0#256, .ofWords fun _ => 0#256, .ofWords fun _ => 0#256]
  buf := Vector.replicate 4 (Vector.replicate 64 0#8)
  fill := 0
  blkcnt := 0#64
  fin := false
  lskip := 0#4
  fault := .none
  x := Vector.replicate 9 0#64
  mem := []
  unreadable := []
  unwritable := []
  transport := .port
  byteOrder := .little
  pending := []
  returned := 0#64
  busData := Vector.replicate 8 0x00#8
  draws := 0

end Sys2Proof.Machine
end

