-- ==== Sys2Proof/Machine/Flags.lean ====
section
/-! DEFINITION. The phases (R30) and the STATUS register (R33), the only flags of the hardware. -/

namespace Sys2Proof.Machine

/-- The 4-bit code of a fault (R180). -/
def faultCode : FaultCode → BitVec 4
  | .none => 0#4
  | .illegal => 1#4
  | .phase => 2#4
  | .len => 3#4
  | .bus => 4#4

/-- Phase Empty (R30): FIN = 0, FILL = 0 and BLKCNT = 0. -/
def State.isEmpty (s : State) : Bool := !s.fin && decide (s.fill = 0) && decide (s.blkcnt = 0#64)

/-- Phase Buffering (R30): FIN = 0 and not Empty. -/
def State.isBuffering (s : State) : Bool := !s.fin && !s.isEmpty

/-- Phase Finalized (R30): FIN = 1. -/
def State.isFinalized (s : State) : Bool := s.fin

/-- STATUS (R33): FAULT 3:0, FIN 4, EMPTY 5, BUFFERING 6, LSKIP 11:8, every other bit zero. -/
def State.status (s : State) : Word :=
  (faultCode s.fault).setWidth 64
    ||| ((BitVec.ofBool s.fin).setWidth 64 <<< 4)
    ||| ((BitVec.ofBool s.isEmpty).setWidth 64 <<< 5)
    ||| ((BitVec.ofBool s.isBuffering).setWidth 64 <<< 6)
    ||| (s.lskip.setWidth 64 <<< 8)

end Sys2Proof.Machine
end

