-- ==== Sys2Proof/Machine/Memory.lean ====
section
/-! DEFINITION. Data memory (R50 to R53): a list of (address, byte) in one canonical form, addresses strictly rising and no
byte 0x00 listed, since an unlisted address reads as 0x00 (DESIGN CHOICE, log 5). -/

namespace Sys2Proof.Machine

/-- The address space has 2^64 bytes (R50). -/
def addressCount : Nat := 2 ^ 64

/-- What an address the list does not name reads as (DESIGN CHOICE, log 5). -/
def blankByte : Byte := 0x00#8

/-- Every address listed is above `lo`, in the address space, and rising; no byte listed is the blank byte. -/
def cellsFrom : Option Nat → List Host.Cell → Bool
  | _, [] => true
  | lo, (a, b) :: rest =>
    (match lo with
      | none => true
      | some p => decide (p < a))
    && decide (a < addressCount) && decide (b ≠ blankByte) && cellsFrom (some a) rest

/-- The canonical form of data memory (log 5). -/
def Memory.wf (m : List Host.Cell) : Bool := cellsFrom none m

/-- The byte at address `a`. -/
def Memory.read : List Host.Cell → Nat → Byte
  | [], _ => blankByte
  | (k, b) :: rest, a => if k = a then b else Memory.read rest a

/-- Removes address `a` from the list. -/
def Memory.erase : List Host.Cell → Nat → List Host.Cell
  | [], _ => []
  | (k, b) :: rest, a => if k = a then Memory.erase rest a else (k, b) :: Memory.erase rest a

/-- Lists `b` at address `a`, which the list does not name, in its place. -/
def Memory.insert : List Host.Cell → Nat → Byte → List Host.Cell
  | [], a, b => [(a, b)]
  | (k, c) :: rest, a, b => if a < k then (a, b) :: (k, c) :: rest else (k, c) :: Memory.insert rest a b

/-- Memory with the byte at address `a` set to `b`. -/
def Memory.write (m : List Host.Cell) (a : Nat) (b : Byte) : List Host.Cell :=
  if b = blankByte then Memory.erase m a else Memory.insert (Memory.erase m a) a b

/-- `MemRead`'s byte i (R51): the byte at (addr + i) mod 2^64. -/
def readAt (m : List Host.Cell) (addr : Word) (i : Nat) : Byte := Memory.read m (addr + BitVec.ofNat 64 i).toNat

/-- `MemRead(addr, n)` (R51), the n bytes at addr, addr+1, ... wrapping modulo 2^64 (R53). -/
def readBytes (m : List Host.Cell) (addr : Word) (n : Nat) : List Byte := (List.range n).map (readAt m addr)

/-- The stores of `MemWrite(addr, n, v)` (R52): byte i of `v` goes to (addr + i) mod 2^64 (R53). -/
def storesAt (addr : Word) : List Byte → List (Word × Byte)
  | [] => []
  | b :: rest => (addr, b) :: storesAt (addr + 1#64) rest

/-- Memory after a list of stores, done in order. -/
def storeAll (m : List Host.Cell) : List (Word × Byte) → List Host.Cell
  | [] => m
  | (a, b) :: rest => storeAll (Memory.write m a.toNat b) rest

end Sys2Proof.Machine
end

