-- ==== Sys2Proof/Machine/Operands.lean ====
section
/-! DEFINITION. What a command takes its operands from: the TS registers its fields name (R71) and the operand registers
x[0..8] (R34), with the lane-length rule of UPDATE and DIGEST (R143). -/

namespace Sys2Proof.Machine

/-- Reads TS[k] (R13). -/
def State.tsReg (s : State) (k : TsReg) : TState := s.ts[k]

/-- Writes all eight words of TS[k] (R13). -/
def State.setTs (s : State) (k : TsReg) (S : TState) : State := { s with ts := s.ts.set k.val S }

/-- The chaining value H, which is TS[0] (R25). -/
def State.chain (s : State) : TState := s.tsReg 0

/-- BUF[l] (R27). -/
def State.bufRow (s : State) (l : Lane) : Block := s.buf[l]

/-- PTR_l = x[l] (R34). -/
def State.ptr (s : State) (l : Lane) : Word := s.x[l.val]

/-- LEN_l = x[4+l] (R34). -/
def State.len (s : State) (l : Lane) : Word := s.x[4 + l.val]

/-- DST = x[8] (R34). -/
def State.dst (s : State) : Word := s.x[8]

/-- Lane l is active: its LEN is not zero (R18, R143). -/
def State.active (s : State) (l : Lane) : Bool := decide (s.len l ≠ 0#64)

/-- The lane lengths of one UPDATE or DIGEST (R143). -/
inductive Lengths where
  | unequal              -- two non-zero lengths differ (R183)
  | allZero              -- no active lane (R144)
  | common (len : Word)  -- the length of every active lane, not zero
  deriving DecidableEq, Repr

/-- The lengths that are not zero, in lane order. -/
def State.activeLengths (s : State) : List Word :=
  [s.len 0, s.len 1, s.len 2, s.len 3].filter fun n => decide (n ≠ 0#64)

/-- The length rule (R143, R183), on x[4..7] alone. -/
def State.lengths (s : State) : Lengths :=
  match s.activeLengths with
  | [] => .allZero
  | n :: rest => if rest.all (fun m => decide (m = n)) then .common n else .unequal

end Sys2Proof.Machine
end

