-- ==== Sys2Proof/Machine/Ops.lean ====
section
/-! DEFINITION. The shared operations: admission of memory ranges (R54), raising a fault and refusing commands while one
stands (R180, R186), breaking a command off (R185 b), resetting the hasher and the block (R141, R200), and the host's access
to the registers, by number (R35 to R38) and over a bus (R9). -/

namespace Sys2Proof.Machine

/-- How a meaning, and a step, ends. -/
abbrev Result := Host.Outcome State Fault Refusal

/-! ### Admission (R54) -/

/-- Address `a` lies in the window. -/
def Window.holds (w : Window) (a : Nat) : Bool := decide (w.base ≤ a) && decide (a < w.base + w.size)

/-- The addresses lo .. hi-1 and the window have one in common. -/
def Window.overlaps (w : Window) (lo hi : Nat) : Bool := decide (max lo w.base < min hi (w.base + w.size))

/-- Some byte of the n-byte range at `addr`, which wraps modulo 2^64 (R53), lies in the window. -/
def Window.meets (w : Window) (addr : Word) (n : Nat) : Bool :=
  w.overlaps addr.toNat (min (addr.toNat + n) addressCount) || w.overlaps 0 (addr.toNat + n - addressCount)

/-- `Readable(a)` (R54, log 4). -/
def State.readable (s : State) (a : Word) : Bool := !s.unreadable.any fun w => w.holds a.toNat

/-- `Writable(a)` (R54, log 4). -/
def State.writable (s : State) (a : Word) : Bool := !s.unwritable.any fun w => w.holds a.toNat

/-- Every byte of the n-byte range at `addr` is readable (R51). -/
def State.canRead (s : State) (addr : Word) (n : Nat) : Bool := !s.unreadable.any fun w => w.meets addr n

/-- Every byte of the n-byte range at `addr` is writable (R52). -/
def State.canWrite (s : State) (addr : Word) (n : Nat) : Bool := !s.unwritable.any fun w => w.meets addr n

/-! ### Faults -/

/-- `raise E_x` (R180): FAULT takes the code and the command ends, everything else as it is (R185 a). -/
def raise (e : FaultCode) (s : State) : Result := .next { s with fault := e }

/-- R186: while FAULT is not 0 a command has no effect at all; otherwise it does `k`. -/
def running (s : State) (k : Result) : Result := if s.fault = .none then k else .next s

/-- E_ILLEGAL (R77, R181): what a write to CMD that is no legal command does. -/
def illegalCommand (s : State) : Result := running s (raise .illegal s)

/-! ### A command broken off (R185 b, R200) -/

/-- Memory after an unspecified subset of the admitted ones among a command's stores, each with the value it would have
written: the `i`-th store happens iff the free value of draw `n` says so (log 8). -/
def State.storeTaken (s : State) (n : Nat) (i : Nat) (m : List Host.Cell) : List (Word × Byte) → List Host.Cell
  | [] => m
  | (a, b) :: rest =>
    s.storeTaken n (i + 1) (if s.writable a && Config.freeTaken n i then Memory.write m a.toNat b else m) rest

/-- A command with these stores is broken off: a free subset of them has happened, and the draw is used up. -/
def State.breakOff (s : State) (stores : List (Word × Byte)) : State :=
  { s with mem := s.storeTaken s.draws 0 s.mem stores, draws := s.draws + 1 }

/-- The unspecified contents of TS[k] at draw `n` (log 6). -/
def freeTs (n : Nat) (k : TsReg) : TState := .ofWords (Config.freeSimd n k)

/-- The hasher (TS[0], BUF, FILL, BLKCNT, FIN, LSKIP) left unspecified at draw `n` (R185 b, log 7). -/
def State.freeHasher (s : State) (n : Nat) : State :=
  { s with
    ts := s.ts.set 0 (freeTs n 0)
    buf := Vector.ofFn fun l => Vector.ofFn fun i => Config.freeBuf n l i
    fill := Config.freeFill n
    blkcnt := Config.freeBlkcnt n
    fin := Config.freeFin n
    lskip := Config.freeLskip n }

/-! ### Reset -/

/-- `InstReset()` (R141). -/
def State.instReset (s : State) : State :=
  { s with
    ts := s.ts.set 0 iv
    buf := Vector.replicate 4 (Vector.replicate 64 0x00#8)
    fill := 0
    blkcnt := 0#64
    fin := false
    lskip := 0#4 }

/-- Hardware reset (R200), the only way out of the faulted state (R190): InstReset, FAULT cleared, TS[1..3] and x[0..8]
unspecified (log 6); data memory is not touched. -/
def State.hardReset (s : State) : State :=
  { s.instReset with
    ts := #v[iv, freeTs s.draws 1, freeTs s.draws 2, freeTs s.draws 3]
    fault := .none
    x := Vector.ofFn fun i => Config.freeOperand s.draws i
    draws := s.draws + 1 }

/-! ### The register space (R36) -/

/-- The number of register CMD (R36). -/
def cmdNumber : Nat := 0

/-- What register number `n` reads as (R36, R37): CMD and the reserved numbers read zero. -/
def State.readReg (s : State) (n : Nat) : Word :=
  if n = 1 then s.status
  else if n = 2 then BitVec.ofNat 64 s.fill.val
  else if n = 3 then s.blkcnt
  else if h : 8 ≤ n ∧ n ≤ 16 then s.x[n - 8]
  else 0#64

/-- A host write of `v` to register number `n` other than CMD (R34, R37): writes to STATUS, FILL, BLKCNT and the reserved
numbers are ignored. -/
def State.writeReg (s : State) (n : Nat) (v : Word) : State :=
  if h : 8 ≤ n ∧ n ≤ 16 then { s with x := s.x.set (n - 8) v } else s

/-! ### The registers on the host's bus (R9, R55 g; log 12) -/

/-- The number of the register the host reaches at bus address `a`, if any. -/
def State.regAt (s : State) (a : Word) : Option Nat :=
  match s.transport with
  | .port => none
  | .mapped regbase stride count =>
    if stride ≠ 0 ∧ (a - regbase).toNat % stride = 0 ∧ (a - regbase).toNat / stride < count then
      some ((a - regbase).toNat / stride)
    else none

/-- The 8 bytes, lowest address first, as which a register's value appears on the bus. -/
def regBytes (o : ByteOrder) (v : Word) : Vector Byte 8 :=
  match o with
  | .little => Vector.ofFn fun i => v.extractLsb' (8 * i.val) 8
  | .big => Vector.ofFn fun i => be64 v i.val

/-- The register value that 8 bytes on the bus, lowest address first, stand for. -/
def regValue (o : ByteOrder) (bytes : Vector Byte 8) : Word :=
  match o with
  | .little => word64 fun i => bytes[i]
  | .big => word64 fun i => bytes[i.rev]

/-- The host reads the 8 bytes at bus address `a`: the register there in the platform's byte order, or free bytes where there
is none, since then the engine does not answer. -/
def State.busRead (s : State) (a : Word) : State :=
  match s.regAt a with
  | some n => { s with busData := regBytes s.byteOrder (s.readReg n) }
  | none => { s with busData := Vector.ofFn fun i => Config.freeBus s.draws i, draws := s.draws + 1 }

/-! ### Results in a TS register -/

/-- A command that writes `S` to TS[d] and changes nothing else (R100, R122, R132, R135). -/
def toTs (d : TsReg) (S : TState) (s : State) : Result := running s (.next (s.setTs d S))

end Sys2Proof.Machine
end

