-- ==== Sys2Proof/Machine/Compression.lean ====
section
/-! DEFINITION. CMPR and OUTX (43_compression.md). -/

namespace Sys2Proof.Machine

/-- CMPR td, ts, tt (R132): ts holds h, tt holds m; BLKCNT does not follow. -/
def execCmpr (d k j : TsReg) (s : State) : Result := toTs d (compress (s.tsReg k) (s.tsReg j)) s

/-- OUTX td, ts (R135). -/
def execOutx (d k : TsReg) (s : State) : Result := toTs d (outX (s.tsReg k)) s

end Sys2Proof.Machine
end

