-- ==== Sys2Proof/Machine/Permutation.lean ====
section
/-! DEFINITION. PERMP and PERMQ (42_permutations.md). -/

namespace Sys2Proof.Machine

/-- PERMP td, ts (R122). -/
def execPermp (d k : TsReg) (s : State) : Result := toTs d (permP (s.tsReg k)) s

/-- PERMQ td, ts (R124). -/
def execPermq (d k : TsReg) (s : State) : Result := toTs d (permQ (s.tsReg k)) s

end Sys2Proof.Machine
end

