-- ==== Sys2Proof/Machine/Round.lean ====
section
/-! DEFINITION. The round primitive commands ARCP, ARCQ, SUBB, SHBP, SHBQ, MIXB and XORS (41_round_primitives.md). Each
reads its sources completely, then writes TS[D] (R100). -/

namespace Sys2Proof.Machine

/-- ARCP and ARCQ with RND > 9 are illegal (R75, R77); no decoded command has such a field (R76). -/
def withRound (rnd : BitVec 4) (s : State) (k : Result) : Result := if legalRound rnd then k else illegalCommand s

/-- ARCP td, ts, rnd (R102). -/
def execArcp (d k : TsReg) (rnd : BitVec 4) (s : State) : Result :=
  withRound rnd s (toTs d (arcP (s.tsReg k) rnd.toNat) s)

/-- ARCQ td, ts, rnd (R104). -/
def execArcq (d k : TsReg) (rnd : BitVec 4) (s : State) : Result :=
  withRound rnd s (toTs d (arcQ (s.tsReg k) rnd.toNat) s)

/-- SUBB td, ts (R106). -/
def execSubb (d k : TsReg) (s : State) : Result := toTs d (subBytes (s.tsReg k)) s

/-- SHBP td, ts (R108). -/
def execShbp (d k : TsReg) (s : State) : Result := toTs d (shiftP (s.tsReg k)) s

/-- SHBQ td, ts (R110). -/
def execShbq (d k : TsReg) (s : State) : Result := toTs d (shiftQ (s.tsReg k)) s

/-- MIXB td, ts (R113). -/
def execMixb (d k : TsReg) (s : State) : Result := toTs d (mixBytes (s.tsReg k)) s

/-- XORS td, ts, tt (R115). -/
def execXors (d k j : TsReg) (s : State) : Result := toTs d (xorState (s.tsReg k) (s.tsReg j)) s

end Sys2Proof.Machine
end

