-- ==== Sys2Proof/Machine/Streaming.lean ====
section
/-! DEFINITION. RESET, UPDATE, FINAL, FINALR and DIGEST (44_streaming.md). -/

namespace Sys2Proof.Machine

/-! ### Absorption (R145, R146) -/

/-- Every source byte of UPDATE or DIGEST is readable: LEN_l bytes at PTR_l for each active lane (R57); nothing is needed of
a lane whose LEN is zero (R59). -/
def State.canAbsorb (s : State) : Bool :=
  (List.finRange 4).all fun l => !s.active l || s.canRead (s.ptr l) (s.len l).toNat

/-- A buffer row with the bytes `start .. start+n-1` replaced by `src 0 .. src (n-1)`. -/
def fillRow (row : Block) (start n : Nat) (src : Nat → Byte) : Block :=
  Vector.ofFn fun i => if start ≤ i.val ∧ i.val < start + n then src (i.val - start) else row[i]

/-- BUF after one turn of R145's loop: n bytes at PTR_l + pos for each active lane, nothing for an absent one (R146). -/
def State.absorbRows (s : State) (pos n : Nat) : Vector Block 4 :=
  Vector.ofFn fun l =>
    if s.active l then fillRow (s.bufRow l) s.fill.val n (readAt s.mem (s.ptr l + BitVec.ofNat 64 pos))
    else s.bufRow l

/-- One turn of R145's loop, taking n bytes per lane: when the buffer is full all four lanes are compressed, BLKCNT counts
(modulo 2^64) and FILL starts again; BUF is not cleared. -/
def State.absorbTurn (s : State) (pos n : Nat) : State :=
  if s.fill.val + n = 64 then
    { s with
      buf := s.absorbRows pos n
      ts := s.ts.set 0 (compress s.chain (pack (s.absorbRows pos n)))
      blkcnt := s.blkcnt + 1#64
      fill := 0 }
  else { s with buf := s.absorbRows pos n, fill := Fin.ofNat 64 (s.fill.val + n) }

/-- R145's loop from position `pos` on, at most `turns` turns. -/
def absorbFrom (len : Nat) : Nat → Nat → State → State
  | 0, _, s => s
  | turns + 1, pos, s =>
    if pos < len then
      absorbFrom len turns (pos + min (64 - s.fill.val) (len - pos)) (s.absorbTurn pos (min (64 - s.fill.val) (len - pos)))
    else s

/-- `Absorb(A, L)` (R145): a turn ends the data or fills the buffer, so (FILL + L) div 64 + 1 turns always suffice. -/
def State.absorb (s : State) (len : Nat) : State := absorbFrom len ((s.fill.val + len) / 64 + 1) 0 s

/-- One bit per lane, set for the absent lanes (R31). -/
def State.absentLanes (s : State) : BitVec 4 :=
  (BitVec.ofBool (!s.active 3) ++ BitVec.ofBool (!s.active 2) ++ BitVec.ofBool (!s.active 1)
    ++ BitVec.ofBool (!s.active 0) : BitVec 4)

/-- `LSKIP[l] <- 1` for every absent lane (R143, R146). -/
def State.markAbsent (s : State) : State := { s with lskip := s.lskip ||| s.absentLanes }

/-! ### Finalization (R148 to R150, R154) -/

/-- The count T that the padding carries (R149). -/
def State.finalCount (s : State) : Word := s.blkcnt + (if s.fill.val < Config.padThreshold then 1#64 else 2#64)

/-- The first padding block of a lane (R148): the r buffered bytes, 0x80, zeros, and be64(T) if r < 56. -/
def padFirst (row : Block) (r : Nat) (count : Word) : Block :=
  Vector.ofFn fun k =>
    if k.val < r then row[k]
    else if k.val = r then Config.padMark
    else if r < Config.padThreshold ∧ Config.padThreshold ≤ k.val then be64 count (k.val - Config.padThreshold)
    else 0x00#8

/-- The second padding block (R148), needed when r >= 56: zeros(56) ++ be64(T), the same for all lanes. -/
def padSecond (count : Word) : Block :=
  Vector.ofFn fun k =>
    if k.val < Config.padThreshold then 0x00#8 else be64 count (k.val - Config.padThreshold)

/-- The state S that R150 leaves in H: the padding blocks absorbed, then the output transformation. -/
def State.finalState (s : State) : TState :=
  let first := compress s.chain
    (pack (Vector.ofFn fun l => padFirst (s.bufRow l) s.fill.val s.finalCount))
  if s.fill.val < Config.padThreshold then outX first
  else outX (compress first (pack (Vector.replicate 4 (padSecond s.finalCount))))

/-- The hasher as `Finalize()` leaves it (R150): H = S, BLKCNT = T, FILL = 0. -/
def State.finalized (s : State) : State :=
  { s with ts := s.ts.set 0 s.finalState, blkcnt := s.finalCount, fill := 0 }

/-- The four digests, lane after lane (R150): bytes 32..63 of each lane of `unpack(S)`. -/
def digestBytes (S : TState) : List Byte :=
  (List.range 128).map fun i => unpackByte S (Fin.ofNat 4 (i / 32)) (32 + i % 32)

/-- The stores of `StoreDigests` for a hasher about to be finalized (R154): digest byte j of lane l at x[8] + 32l + j. -/
def State.digestStores (s : State) : List (Word × Byte) := storesAt s.dst (digestBytes s.finalState)

/-- `Finalize()` and `StoreDigests` done (R150, R154). -/
def State.finalizeAndStore (s : State) : State := { s.finalized with mem := storeAll s.mem s.digestStores }

/-- A command of this file broken off by E_BUS: a free subset of `stores` has happened and the hasher is unspecified
(R185 b, log 7). -/
def hasherBus (stores : List (Word × Byte)) (s : State) : State :=
  { (s.breakOff stores).freeHasher s.draws with fault := .bus }

/-! ### The commands -/

/-- RESET (R142). -/
def execReset (s : State) : Result := running s (.next s.instReset)

/-- Buffer position `i` is one that an UPDATE of `len` bytes writes: some of the positions FILL .. FILL+len-1, taken modulo
64, is `i` (R145). -/
def State.touches (s : State) (len : Nat) (i : Fin 64) : Bool := decide ((i.val + 64 - s.fill.val) % 64 < len)

/-- UPDATE of `len` bytes broken off by E_BUS (R147 f, R185 b): what it could have written is unspecified, that is TS[0], the
positions of active lanes' rows it fills, FILL, BLKCNT and the LSKIP bits of absent lanes (log 7). -/
def updateBus (len : Nat) (s : State) : State :=
  { s.breakOff [] with
    ts := s.ts.set 0 (freeTs s.draws 0)
    buf := Vector.ofFn fun l => Vector.ofFn fun i =>
      if s.active l && s.touches len i then Config.freeBuf s.draws l i else (s.bufRow l)[i]
    fill := Config.freeFill s.draws
    blkcnt := Config.freeBlkcnt s.draws
    lskip := (s.lskip &&& ~~~s.absentLanes) ||| (Config.freeLskip s.draws &&& s.absentLanes)
    fault := .bus }

/-- UPDATE (R143): the checks in the rule's order, then `Absorb`; with every LEN zero nothing happens (R144). -/
def execUpdate (s : State) : Result :=
  running s <|
    if s.fin then raise .phase s
    else
      match s.lengths with
      | .unequal => raise .len s
      | .allZero => .next s
      | .common n => if s.canAbsorb then .next (s.markAbsent.absorb n.toNat) else .next (updateBus n.toNat s)

/-- FINAL (R151). -/
def execFinal (s : State) : Result :=
  running s <|
    if s.fin then raise .phase s
    else if s.canWrite s.dst 128 then .next { s.finalizeAndStore with fin := true }
    else .next (hasherBus s.digestStores s)

/-- FINALR (R152). -/
def execFinalr (s : State) : Result :=
  running s <|
    if s.fin then raise .phase s
    else if s.canWrite s.dst 128 then .next s.finalizeAndStore.instReset
    else .next (hasherBus s.digestStores s)

/-- The hasher DIGEST finalizes (R153): reset, the absent lanes marked and the data absorbed, if there is any. -/
def State.hashed (s : State) : State :=
  match s.lengths with
  | .common n => s.instReset.markAbsent.absorb n.toNat
  | .allZero => s.instReset
  | .unequal => s.instReset

/-- The stores of a DIGEST broken off: the digests, or free bytes when a source byte is not readable, since then no completed
command says what they would have been (R185 b, log 9). -/
def State.digestBrokenStores (s : State) : List (Word × Byte) :=
  if s.canAbsorb then s.hashed.digestStores
  else storesAt s.dst ((List.range 128).map (Config.freeDigest s.draws))

/-- DIGEST (R153): never E_PHASE; a length violation leaves the resident hasher as it is. -/
def execDigest (s : State) : Result :=
  running s <|
    if s.lengths = .unequal then raise .len s
    else if s.canAbsorb && s.canWrite s.dst 128 then .next s.hashed.finalizeAndStore.instReset
    else .next (hasherBus s.digestBrokenStores s)

end Sys2Proof.Machine
end

