-- ==== Sys2Proof/Machine/Transposition.lean ====
section
/-! DEFINITION. PACK and UNPACK (40_transposition.md). -/

namespace Sys2Proof.Machine

/-- Every source byte of PACK is readable: 64 bytes at each PTR_l (R57, R94). -/
def State.canPack (s : State) : Bool :=
  (List.finRange 4).all fun l => s.canRead (s.ptr l) 64

/-- The four source blocks of PACK: `b[l] = MemRead(x[l], 64)` (R94). -/
def State.packSource (s : State) : Vector Block 4 :=
  Vector.ofFn fun l => Vector.ofFn fun k => readAt s.mem (s.ptr l) k.val

/-- PACK after E_BUS (R94, R185 b): TS[D] is unspecified. -/
def packBus (d : TsReg) (s : State) : State :=
  { (s.breakOff []).setTs d (freeTs s.draws d) with fault := .bus }

/-- PACK td (R94). -/
def execPack (d : TsReg) (s : State) : Result :=
  running s (if s.canPack then .next (s.setTs d (pack s.packSource)) else .next (packBus d s))

/-- The 256 bytes of `unpack(S)`, lane after lane (R92, R95). -/
def unpackBytes (S : TState) : List Byte :=
  (List.range 256).map fun i => unpackByte S (Fin.ofNat 4 (i / 64)) (i % 64)

/-- The stores of UNPACK ts (R95): byte k of lane l at x[8] + 64l + k. -/
def State.unpackStores (s : State) (k : TsReg) : List (Word × Byte) := storesAt s.dst (unpackBytes (s.tsReg k))

/-- UNPACK ts (R95). -/
def execUnpack (k : TsReg) (s : State) : Result :=
  running s <|
    if s.canWrite s.dst 256 then .next { s with mem := storeAll s.mem (s.unpackStores k) }
    else .next { s.breakOff (s.unpackStores k) with fault := .bus }

end Sys2Proof.Machine
end

