-- ==== Sys2Proof/Machine/Dispatch.lean ====
section
/-! DEFINITION. exec: the meaning of every command, one arm per constructor of Instr. -/

namespace Sys2Proof.Machine

/-- What a command does (the semantics column of R73). -/
def exec (i : Instr) (s : State) : Host.Outcome State Fault Refusal :=
  match i with
  | .reset => Sys2Proof.Machine.execReset s
  | .update => Sys2Proof.Machine.execUpdate s
  | .final => Sys2Proof.Machine.execFinal s
  | .finalr => Sys2Proof.Machine.execFinalr s
  | .digest => Sys2Proof.Machine.execDigest s
  | .pack d => Sys2Proof.Machine.execPack d s
  | .unpack k => Sys2Proof.Machine.execUnpack k s
  | .arcp d k rnd => Sys2Proof.Machine.execArcp d k rnd s
  | .arcq d k rnd => Sys2Proof.Machine.execArcq d k rnd s
  | .subb d k => Sys2Proof.Machine.execSubb d k s
  | .shbp d k => Sys2Proof.Machine.execShbp d k s
  | .shbq d k => Sys2Proof.Machine.execShbq d k s
  | .mixb d k => Sys2Proof.Machine.execMixb d k s
  | .xors d k j => Sys2Proof.Machine.execXors d k j s
  | .permp d k => Sys2Proof.Machine.execPermp d k s
  | .permq d k => Sys2Proof.Machine.execPermq d k s
  | .cmpr d k j => Sys2Proof.Machine.execCmpr d k j s
  | .outx d k => Sys2Proof.Machine.execOutx d k s

end Sys2Proof.Machine
end

