-- ==== Sys2Proof/Machine/HostPort.lean ====
section
/-! DEFINITION. What each access of the outside world does: host register reads and writes (R9, R35 to R38), the host's own use of
data memory (R50, R61), and hardware reset (R200). -/

namespace Sys2Proof.Machine

/-- A host write of `v` to CMD (R35, R76): the command is executed, or the value is illegal (R77); either way a faulted engine
does nothing (R186). -/
def writeCmd (v : Word) (s : State) : Result :=
  match decode v with
  | .ok i => exec i s
  | .error _ => illegalCommand s

/-- A host write of `v` to register number `n` (R38): to CMD, a command; to any other number, a plain register write. -/
def registerWrite (n : Nat) (v : Word) (s : State) : Result :=
  if n = cmdNumber then writeCmd v s else .next (s.writeReg n v)

/-- The stores a command does if it is neither refused nor stopped by a contract fault (R57). -/
def storesOf (i : Instr) (s : State) : List (Word × Byte) :=
  match i with
  | .reset => []
  | .update => []
  | .final => if s.fin then [] else s.digestStores
  | .finalr => if s.fin then [] else s.digestStores
  | .digest => if s.lengths = .unequal then [] else s.digestBrokenStores
  | .pack _ => []
  | .unpack k => s.unpackStores k
  | .arcp _ _ _ => []
  | .arcq _ _ _ => []
  | .subb _ _ => []
  | .shbp _ _ => []
  | .shbq _ _ => []
  | .mixb _ _ => []
  | .xors _ _ _ => []
  | .permp _ _ => []
  | .permq _ _ => []
  | .cmpr _ _ _ => []
  | .outx _ _ => []

/-- The stores of the command written to CMD as `v`: none if the engine refuses it (R186) or it is illegal (R77). -/
def cmdStores (v : Word) (s : State) : List (Word × Byte) :=
  if s.fault = .none then
    match decode v with
    | .ok i => storesOf i s
    | .error _ => []
  else []

/-- One access of the outside world. -/
def take (a : Access) (s : State) : Result :=
  match a with
  | .rd n => .next { s with returned := s.readReg n }
  | .wr n v => registerWrite n v s
  | .busRd a => .next (s.busRead a)
  | .busWr a bytes =>
    match s.regAt a with
    | some n => registerWrite n (regValue s.byteOrder bytes) s
    | none => .next s
  | .load a => .next { s with returned := (readAt s.mem a 0).setWidth 64 }
  | .store a b => .next { s with mem := Memory.write s.mem a.toNat b }
  | .hardReset => .next s.hardReset
  | .resetDuring v => .next (s.breakOff (cmdStores v s)).hardReset

/-- The value the host writes to CMD for a row of spec/opcode_table.json, its bits above `nbits` zero. -/
def tableCommand (nbits w : Nat) : Word := BitVec.ofNat 64 (w % 2 ^ nbits)

end Sys2Proof.Machine
end

