-- ==== Sys2Proof/Machine/Step.lean ====
section
/-! DEFINITION. One step: the engine takes the host's next access (R17, R38, R39); with none pending nothing happens. -/

namespace Sys2Proof.Machine

/-- One step of the machine. There is no program counter (R39): the host's accesses are the program, and the next one is the
head of `pending` (log 2). -/
def step (s : State) : Host.Outcome State Fault Refusal :=
  match s.pending with
  | [] => .next s
  | a :: rest => take a { s with pending := rest }

/-- The state with a host write of the command to CMD as the next access (log 2). -/
def State.withFetchWord (s : State) (nbits w : Nat) : State :=
  { s with pending := .wr cmdNumber (tableCommand nbits w) :: s.pending }

end Sys2Proof.Machine
end

