-- ==== Sys2Proof/Machine/Reference.lean ====
section
/-! DEFINITION. The single-lane reference function Groestl256(msg) of R172, on one 8-by-8 byte matrix, with none of the
engine's words or lanes. The claims compare the engine with it; no command uses it. -/

namespace Sys2Proof.Machine

/-- The matrix element at row r, column c of a 64-byte block: byte 8c + r (R90). -/
def elem (M : Block) (r c : Fin 8) : Byte := M[8 * c.val + r.val]'(by omega)

/-- The block whose matrix elements are `f r c` (R90). -/
def ofElems (f : Fin 8 → Fin 8 → Byte) : Block :=
  Vector.ofFn fun k => f (Fin.ofNat 8 (k.val % 8)) (Fin.ofNat 8 (k.val / 8))

/-- One lane of ArcP (R101). -/
def arcP1 (M : Block) (i : Nat) : Block :=
  ofElems fun r c => if r = 0 then elem M r c ^^^ BitVec.ofNat 8 (16 * c.val) ^^^ BitVec.ofNat 8 i else elem M r c

/-- One lane of ArcQ (R103). -/
def arcQ1 (M : Block) (i : Nat) : Block :=
  ofElems fun r c =>
    if r = 7 then elem M r c ^^^ 0xFF#8 ^^^ BitVec.ofNat 8 (16 * c.val) ^^^ BitVec.ofNat 8 i else elem M r c ^^^ 0xFF#8

/-- One lane of SubBytes (R105). -/
def subBytes1 (M : Block) : Block := ofElems fun r c => sbox (elem M r c)

/-- One lane of ShiftP or ShiftQ (R107, R109). -/
def shiftBytes1 (sigma : Fin 8 → Nat) (M : Block) : Block :=
  ofElems fun r c => elem M r (Fin.ofNat 8 (c.val + sigma r))

/-- The XOR over j < n of coef[(j - i) mod 8] * M[j][c] (R111). -/
def mixSum1 (M : Block) (i c : Fin 8) : Nat → Byte
  | 0 => 0#8
  | n + 1 => mixSum1 M i c n ^^^ gmul (mixCoef (n + 8 - i.val)) (elem M (Fin.ofNat 8 n) c)

/-- One lane of MixBytes (R111). -/
def mixBytes1 (M : Block) : Block := ofElems fun i c => mixSum1 M i c 8

/-- One lane of Xor (R114). -/
def xor1 (M N : Block) : Block := ofElems fun r c => elem M r c ^^^ elem N r c

/-- Rounds 0 .. n-1 of P on one lane (R120, R121). -/
def roundsP1 : Nat → Block → Block
  | 0, M => M
  | n + 1, M => mixBytes1 (shiftBytes1 sigmaP (subBytes1 (arcP1 (roundsP1 n M) n)))

/-- Rounds 0 .. n-1 of Q on one lane (R120, R123). -/
def roundsQ1 : Nat → Block → Block
  | 0, M => M
  | n + 1, M => mixBytes1 (shiftBytes1 sigmaQ (subBytes1 (arcQ1 (roundsQ1 n M) n)))

/-- P1 of R172. -/
def permP1 (M : Block) : Block := roundsP1 Config.rounds M

/-- Q1 of R172. -/
def permQ1 (M : Block) : Block := roundsQ1 Config.rounds M

/-- `h xor P1(h xor m) xor Q1(m)` (R172). -/
def compress1 (h m : Block) : Block := xor1 (xor1 h (permP1 (xor1 h m))) (permQ1 m)

/-- `P1(h) xor h` (R172). -/
def outX1 (h : Block) : Block := xor1 (permP1 h) h

/-- IV1 (R172): zeros(62) ++ 0x01 ++ 0x00. -/
def iv1 : Block := Vector.ofFn fun k => if k.val = 62 then 0x01#8 else 0x00#8

/-- T (R172): the number of blocks after padding a message of `len` bytes. -/
def blockCount (len : Nat) : Nat := (len + 72) / 64

/-- The padded message (R172): msg ++ 0x80 ++ zeros(64 T - N - 9) ++ be64(T). -/
def padded (msg : List Byte) : List Byte :=
  msg ++ [0x80#8] ++ List.replicate (64 * blockCount msg.length - msg.length - 9) 0x00#8
    ++ (List.range 8).map (be64 (BitVec.ofNat 64 (blockCount msg.length)))

/-- Block i of a padded message: its bytes 64i .. 64i+63 (R172). -/
def blockAt (pad : List Byte) (i : Nat) : Block := Vector.ofFn fun k => pad.getD (64 * i + k.val) 0x00#8

/-- The chaining value after blocks 0 .. n-1 (R172). -/
def chain1 (pad : List Byte) : Nat → Block
  | 0 => iv1
  | n + 1 => compress1 (chain1 pad n) (blockAt pad n)

/-- `Groestl256(msg)` (R172): bytes 32..63 of the final state. -/
def groestl256 (msg : List Byte) : List Byte :=
  (outX1 (chain1 (padded msg) (blockCount msg.length))).toList.drop 32

end Sys2Proof.Machine
end

