-- ==== Sys2Proof/Safety.lean ====
section
/-! DEFINITION. The terms the claims use: the invariant every step keeps, what a command leaves unchanged, and address ranges. -/

namespace Sys2Proof.Machine

/-- Data memory is in its canonical form (log 5): the invariant every step keeps. -/
def State.Inv (s : State) : Prop := Memory.wf s.mem = true

/-- Address `a` lies outside the n-byte range at `addr`, which wraps modulo 2^64 (R53). -/
def outside (addr : Word) (n : Nat) (a : Nat) : Prop := ∀ i < n, (addr + BitVec.ofNat 64 i).toNat ≠ a

/-- Every byte of data memory reads as before. -/
def SameMemory (s t : State) : Prop := ∀ a, Memory.read t.mem a = Memory.read s.mem a

/-- Every byte of data memory outside the n-byte range at `addr` reads as before. -/
def SameMemoryOutside (addr : Word) (n : Nat) (s t : State) : Prop :=
  ∀ a, outside addr n a → Memory.read t.mem a = Memory.read s.mem a

/-- What no command touches (R34, R38): the operand registers, the platform's parameters, the host's pending accesses and what
its last reads were answered with. -/
def SameSurroundings (s t : State) : Prop :=
  t.x = s.x ∧ t.unreadable = s.unreadable ∧ t.unwritable = s.unwritable ∧ t.transport = s.transport ∧ t.byteOrder = s.byteOrder
    ∧ t.pending = s.pending ∧ t.returned = s.returned ∧ t.busData = s.busData

/-- Every TS register but TS[d] is unchanged. -/
def SameTsBut (d : TsReg) (s t : State) : Prop := ∀ k, k ≠ d → t.tsReg k = s.tsReg k

/-- Every TS register is unchanged. -/
def SameTs (s t : State) : Prop := ∀ k, t.tsReg k = s.tsReg k

/-- The hasher's control state is unchanged: BUF, FILL, BLKCNT, FIN and LSKIP. -/
def SameHasher (s t : State) : Prop :=
  t.buf = s.buf ∧ t.fill = s.fill ∧ t.blkcnt = s.blkcnt ∧ t.fin = s.fin ∧ t.lskip = s.lskip

/-- Nothing but TS[d] is changed: the frame of PACK and of the commands of files 41 to 43 (R100, R122, R132, R135). -/
def OnlyTsChanged (d : TsReg) (s t : State) : Prop :=
  SameTsBut d s t ∧ SameHasher s t ∧ t.fault = s.fault ∧ SameSurroundings s t ∧ t.draws = s.draws ∧ SameMemory s t

/-- The hasher is as an instance reset leaves it (R141): H = IV, BUF zero, FILL, BLKCNT, FIN and LSKIP zero. -/
def FreshHasher (t : State) : Prop :=
  t.tsReg 0 = iv ∧ (∀ (l : Lane) (i : Fin 64), (t.bufRow l)[i] = 0x00#8) ∧ t.fill = 0 ∧ t.blkcnt = 0#64 ∧ t.fin = false
    ∧ t.lskip = 0#4

/-- The 32 bytes at DST + 32l hold lane l's part of the 128 digest bytes of `S`: bytes 32..63 of lane l of `unpack(S)`
(R150, R154). -/
def DigestsStored (addr : Word) (S : TState) (t : State) : Prop :=
  ∀ (l : Lane) (j : Fin 32),
    readAt t.mem (addr + BitVec.ofNat 64 (32 * l.val)) j.val = unpackByte S l (32 + j.val)

/-- Nothing but TS[0], BUF, FILL and BLKCNT is changed: what absorbing data may touch (R145). -/
def OnlyStreamChanged (s t : State) : Prop :=
  SameTsBut 0 s t ∧ t.fin = s.fin ∧ t.lskip = s.lskip ∧ t.fault = s.fault ∧ SameSurroundings s t ∧ t.draws = s.draws
    ∧ t.mem = s.mem

/-! ### What UPDATE absorbs (R145, R146) -/

/-- Byte p of `BUF[l][0..FILL-1] ++ d`, d the source bytes of lane l (R145). -/
def State.streamByte (s : State) (l : Lane) (p : Nat) : Byte :=
  if p < s.fill.val then (s.bufRow l)[p]! else readAt s.mem (s.ptr l) (p - s.fill.val)

/-- The super-block compressed as number i (from 0) by the next UPDATE: for an active lane the i-th 64-byte window of its
stream (R145), for an absent lane what its buffer row holds (R146). -/
def State.superBlock (s : State) (i : Nat) : Vector Block 4 :=
  Vector.ofFn fun l =>
    if s.active l then Vector.ofFn fun k => s.streamByte l (64 * i + k.val) else s.bufRow l

/-- The chaining value after the first n of those super-blocks, in order (R145). -/
def State.chainAfter (s : State) : Nat → TState
  | 0 => s.chain
  | n + 1 => compress (s.chainAfter n) (pack (s.superBlock n))

/-- Lane l of a hasher that is not finalized has absorbed exactly `msg` (R173): the counts say its length, lane l of the
chaining value is the reference function's after the full blocks of `msg`, and lane l's buffer row begins with the rest. -/
def State.hasAbsorbed (s : State) (l : Lane) (msg : List Byte) : Prop :=
  s.fin = false ∧ s.fill.val = msg.length % 64 ∧ s.blkcnt = BitVec.ofNat 64 (msg.length / 64) ∧
  (unpack s.chain)[l] = chain1 msg (msg.length / 64) ∧
  ∀ k < s.fill.val, (s.bufRow l)[k]! = msg.getD (64 * (msg.length / 64) + k) 0x00#8

/-! ### Sequences of commands -/

/-- Commands done one after another, each on the state the one before left. -/
def execAll : List Instr → State → Result
  | [], s => .next s
  | i :: rest, s =>
    match exec i s with
    | .next t => execAll rest t
    | .fault e => .fault e
    | .refused e => .refused e

/-- `ROUNDP t, r` (R80): one round of P on a register. -/
def roundpCommands (k : TsReg) (rnd : BitVec 4) : List Instr := [.arcp k k rnd, .subb k k, .shbp k k, .mixb k k]

/-- `ROUNDQ t, r` (R80): one round of Q on a register. -/
def roundqCommands (k : TsReg) (rnd : BitVec 4) : List Instr := [.arcq k k rnd, .subb k k, .shbq k k, .mixb k k]

/-- The round indices 0..9 in order (R121). -/
def roundIndices : List (BitVec 4) := [0#4, 1#4, 2#4, 3#4, 4#4, 5#4, 6#4, 7#4, 8#4, 9#4]

/-- `SETSRC` of R80 with one length for all lanes: PTR_l = p l and LEN_l = n. -/
def State.withSources (s : State) (p : Lane → Word) (n : Word) : State :=
  { s with x := #v[p 0, p 1, p 2, p 3, n, n, n, n, s.dst] }

end Sys2Proof.Machine
end

