-- ==== Sys2Proof/Certificates/Slice0/Obligations.lean ====
section
/-! DEFINITION. The statements for the provers. Each docstring names the rules of spec/ it formalises. -/

open Sys2Proof Sys2Proof.Machine

/-! ### Decoding -/

/-- Every legal command is decoded from its encoding, with every operand at every value the encoding admits (R71 to R76). -/
def Obligations.DecodeInvertsEncode : Prop :=
  ∀ i : Instr, i.wellFormed = true → decode (encode i) = .ok i

/-- A value written to CMD that is decoded is the one encoding of a legal command: no reserved bit and no unused field is
ignored (R74, R75). -/
def Obligations.DecodedValueIsTheEncoding : Prop :=
  ∀ (v : Word) (i : Instr), decode v = .ok i → i.wellFormed = true ∧ encode i = v

/-- The worked words of R79, R94, R102, R104, R115, R122, R124, R132 and V20. -/
def Obligations.SpecWordsDecode : Prop :=
  decode 0x00070621#64 = .ok (.arcq 2 1 7#4) ∧ decode 0x00000110#64 = .ok (.pack 1) ∧
  decode 0x00000c11#64 = .ok (.unpack 3) ∧ decode 0x00030520#64 = .ok (.arcp 1 1 3#4) ∧
  decode 0x00002726#64 = .ok (.xors 3 1 2) ∧ decode 0x00000630#64 = .ok (.permp 2 1) ∧
  decode 0x00000a31#64 = .ok (.permq 2 2) ∧ decode 0x00002c38#64 = .ok (.cmpr 0 3 2) ∧
  decode 0x00000002#64 = .ok .update ∧ decode 0x00000000#64 = .error (.unknownOpcode 0#8) ∧
  decode 0x0000000100000001#64 = .error .upperHalf ∧ decode 0x000A0120#64 = .error .roundIndex

/-- One row of R73's table: `pattern` is its match column, `mask` its mask column, `named` tells its command. -/
structure Sys2Proof.OpcodeRow where
  pattern : BitVec 32
  mask : BitVec 32
  named : Instr → Bool

/-- R73's table. -/
def Sys2Proof.opcodeRows : List OpcodeRow :=
  [⟨0x00000001#32, 0xFFFFFFFF#32, fun | .reset => true | _ => false⟩,
   ⟨0x00000002#32, 0xFFFFFFFF#32, fun | .update => true | _ => false⟩,
   ⟨0x00000003#32, 0xFFFFFFFF#32, fun | .final => true | _ => false⟩,
   ⟨0x00000004#32, 0xFFFFFFFF#32, fun | .finalr => true | _ => false⟩,
   ⟨0x00000005#32, 0xFFFFFFFF#32, fun | .digest => true | _ => false⟩,
   ⟨0x00000010#32, 0xFFFFFCFF#32, fun | .pack _ => true | _ => false⟩,
   ⟨0x00000011#32, 0xFFFFF3FF#32, fun | .unpack _ => true | _ => false⟩,
   ⟨0x00000020#32, 0xFFF0F0FF#32, fun | .arcp _ _ _ => true | _ => false⟩,
   ⟨0x00000021#32, 0xFFF0F0FF#32, fun | .arcq _ _ _ => true | _ => false⟩]
  ++
  [⟨0x00000022#32, 0xFFFFF0FF#32, fun | .subb _ _ => true | _ => false⟩,
   ⟨0x00000023#32, 0xFFFFF0FF#32, fun | .shbp _ _ => true | _ => false⟩,
   ⟨0x00000024#32, 0xFFFFF0FF#32, fun | .shbq _ _ => true | _ => false⟩,
   ⟨0x00000025#32, 0xFFFFF0FF#32, fun | .mixb _ _ => true | _ => false⟩,
   ⟨0x00000026#32, 0xFFFFC0FF#32, fun | .xors _ _ _ => true | _ => false⟩,
   ⟨0x00000030#32, 0xFFFFF0FF#32, fun | .permp _ _ => true | _ => false⟩,
   ⟨0x00000031#32, 0xFFFFF0FF#32, fun | .permq _ _ => true | _ => false⟩,
   ⟨0x00000038#32, 0xFFFFC0FF#32, fun | .cmpr _ _ _ => true | _ => false⟩,
   ⟨0x00000039#32, 0xFFFFF0FF#32, fun | .outx _ _ => true | _ => false⟩]

/-- A word encodes the command of a row of R73 iff `w & mask = match` (and, for ARCP and ARCQ, RND <= 9). The RND condition
is asked of every row: where the mask covers the RND field it follows from `w & mask = match`. -/
def Obligations.MatchAndMaskDecide : Prop :=
  ∀ (w : BitVec 32), ∀ row ∈ opcodeRows,
    ((∃ i, decode (w.setWidth 64) = .ok i ∧ row.named i = true) ↔
      (w &&& row.mask = row.pattern ∧ (w.extractLsb' 16 4).toNat ≤ 9))

/-- A value with a non-zero upper half, an opcode not in R73, a non-zero reserved bit, a non-zero field its opcode's format
does not use, or RND above 9 is rejected, and writing a rejected value to CMD raises E_ILLEGAL and changes nothing else (R77,
R181). -/
def Obligations.IllegalValueFaults : Prop :=
  (∀ (v : Word) (s : State), s.fault = .none → (∀ i, decode v ≠ .ok i) →
      writeCmd v s = .next { s with fault := .illegal }) ∧
  (∀ v : Word,
      (v.extractLsb' 32 32 ≠ 0#32 ∨
       (fieldsOf v).op.toNat ∉ [0x01, 0x02, 0x03, 0x04, 0x05, 0x10, 0x11, 0x20, 0x21, 0x22, 0x23, 0x24, 0x25, 0x26, 0x30, 0x31, 0x38, 0x39] ∨
       v.extractLsb' 14 2 ≠ 0#2 ∨ v.extractLsb' 20 12 ≠ 0#12 ∨
       ((fieldsOf v).op.toNat ∈ [0x01, 0x02, 0x03, 0x04, 0x05, 0x11] ∧ (fieldsOf v).d ≠ 0) ∨
       ((fieldsOf v).op.toNat ∈ [0x01, 0x02, 0x03, 0x04, 0x05, 0x10] ∧ (fieldsOf v).s ≠ 0) ∨
       ((fieldsOf v).op.toNat ∉ [0x26, 0x38] ∧ (fieldsOf v).t ≠ 0) ∨
       ((fieldsOf v).op.toNat ∉ [0x20, 0x21] ∧ (fieldsOf v).rnd ≠ 0#4) ∨
       9 < (fieldsOf v).rnd.toNat) →
      ∀ i, decode v ≠ .ok i)

/-! ### The step and the register space -/

/-- A step runs the value the host writes to CMD, whatever it is (R35, R38, R76): the step is `writeCmd` of the value on the
state with the access taken; where the value decodes, that is the command's meaning; where it does not and no fault stands,
FAULT becomes E_ILLEGAL and nothing else changes (R77, R181). -/
def Obligations.StepRunsDecodedCommand : Prop :=
  ∀ (s : State) (v : Word) (rest : List Access), s.pending = .wr 0 v :: rest →
    step s = writeCmd v { s with pending := rest } ∧
    (∀ i : Instr, decode v = .ok i → step s = exec i { s with pending := rest }) ∧
    (s.fault = .none → (∀ i : Instr, decode v ≠ .ok i) → step s = .next { s with pending := rest, fault := .illegal })

/-- Every step answers a next state: no command, legal or not, and no host access stops the machine (R17, C8). -/
def Obligations.EveryStepCompletes : Prop :=
  ∀ s : State, ∃ t, step s = .next t

/-- What the host reads at each register number, and that a read changes nothing else (R36, R37, R38). Over a bus (R9, R55 g;
the window's form is the model's, log 12): register number n of a window is reached at regbase + stride * n where
stride * n is below 2^64, and a bus read there answers the bytes of what a read of number n answers, in the platform's byte order. -/
def Obligations.HostReadsRegisters : Prop :=
  (∀ (s : State) (n : Nat) (rest : List Access), s.pending = .rd n :: rest →
    ∃ v, step s = .next { s with pending := rest, returned := v } ∧
      (n = 0 → v = 0#64) ∧ (n = 1 → v = s.status) ∧ (n = 2 → v.toNat = s.fill.val) ∧ (n = 3 → v = s.blkcnt) ∧
      (4 ≤ n → n ≤ 7 → v = 0#64) ∧ (∀ i : Fin 9, n = 8 + i.val → v = s.x[i]) ∧ (17 ≤ n → v = 0#64)) ∧
  (∀ (s : State) (regbase : Word) (stride count n : Nat), s.transport = .mapped regbase stride count → 0 < stride →
    n < count → stride * n < 2 ^ 64 → s.regAt (regbase + BitVec.ofNat 64 (stride * n)) = some n) ∧
  (∀ (s : State) (a : Word) (n : Nat) (rest : List Access), s.pending = .busRd a :: rest → s.regAt a = some n →
    ∃ v bytes, step { s with pending := .rd n :: rest } = .next { s with pending := rest, returned := v } ∧
      step s = .next { s with pending := rest, busData := bytes } ∧
      ∀ i : Fin 8, bytes[i] = v.extractLsb' (match s.byteOrder with | .little => 8 * i.val | .big => 56 - 8 * i.val) 8)

/-- What the host's write of a register number other than CMD does: x[i] takes the value and nothing else changes; the
read-only and the reserved numbers ignore it (R34, R37, R38). Over a bus (R9, R55 g; log 12): a write of the bytes of v, in
the platform's byte order, where register number n is reached, CMD included, is a write of v to number n; a write that reaches
no register does not reach the engine. -/
def Obligations.HostWritesRegisters : Prop :=
  (∀ (s : State) (n : Nat) (v : Word) (rest : List Access), s.pending = .wr n v :: rest → n ≠ 0 →
    ∃ t, step s = .next t ∧
      (∀ i : Fin 9, t.x[i] = if n = 8 + i.val then v else s.x[i]) ∧
      t = { s with pending := rest, x := t.x }) ∧
  (∀ (s : State) (a : Word) (bytes : Vector Byte 8) (n : Nat) (v : Word) (rest : List Access),
    s.pending = .busWr a bytes :: rest → s.regAt a = some n →
    (∀ i : Fin 8, bytes[i] = v.extractLsb' (match s.byteOrder with | .little => 8 * i.val | .big => 56 - 8 * i.val) 8) →
    step s = step { s with pending := .wr n v :: rest }) ∧
  (∀ (s : State) (a : Word) (bytes : Vector Byte 8) (rest : List Access),
    s.pending = .busWr a bytes :: rest → s.regAt a = none → step s = .next { s with pending := rest })

/-- The fields of STATUS (R33), and that exactly one of FIN, EMPTY and BUFFERING is set (R30, R33). -/
def Obligations.StatusFields : Prop :=
  ∀ s : State,
    s.status.extractLsb' 0 4 = faultCode s.fault ∧
    s.status.getLsbD 4 = s.fin ∧
    (s.status.getLsbD 5 = true ↔ s.fin = false ∧ s.fill = 0 ∧ s.blkcnt = 0#64) ∧
    (s.status.getLsbD 6 = true ↔ s.fin = false ∧ s.status.getLsbD 5 = false) ∧
    s.status.getLsbD 7 = false ∧
    s.status.extractLsb' 8 4 = s.lskip ∧
    s.status.extractLsb' 12 52 = 0#52 ∧
    ([s.status.getLsbD 4, s.status.getLsbD 5, s.status.getLsbD 6].count true = 1)

/-- The codes of R180: 0 none, 1 E_ILLEGAL, 2 E_PHASE, 3 E_LEN, 4 E_BUS. -/
def Obligations.FaultCodes : Prop :=
  faultCode .none = 0#4 ∧ faultCode .illegal = 1#4 ∧ faultCode .phase = 2#4 ∧ faultCode .len = 3#4 ∧ faultCode .bus = 4#4

/-! ### Reset -/

/-- The reset values the spec gives (R42), after hardware reset and after an instance reset: the hasher fresh (R26, R141), and
STATUS 0x20 where FAULT is 0; an instance reset leaves TS[1..3], x[0..8] and FAULT as they are. -/
def Obligations.ResetValues : Prop :=
  FreshHasher State.reset ∧ State.reset.fault = .none ∧ State.reset.status = 0x20#64 ∧
  (∀ (l : Lane) (r c : Fin 8), iv.at l r c = if r = 6 ∧ c = 7 then 0x01#8 else 0x00#8) ∧
  (∀ s : State, FreshHasher s.instReset ∧ SameTsBut 0 s s.instReset ∧ s.instReset.fault = s.fault ∧ s.instReset.x = s.x ∧
    s.instReset.mem = s.mem ∧ (s.fault = .none → s.instReset.status = 0x20#64))

/-- Hardware reset (R200): the hasher fresh, FAULT clear, STATUS 0x20, data memory not touched; asserted while a command is in
progress, each byte of data memory is as it was or as one of that command's stores would have left it. Nothing is said of
TS[1..3] and x[0..8]. -/
def Obligations.HardwareReset : Prop :=
  (∀ (s : State) (rest : List Access), s.pending = .hardReset :: rest →
    ∃ t, step s = .next t ∧ FreshHasher t ∧ t.fault = .none ∧ t.status = 0x20#64 ∧ t.mem = s.mem ∧ t.pending = rest) ∧
  (∀ (s : State) (v : Word) (rest : List Access), s.pending = .resetDuring v :: rest →
    ∃ t, step s = .next t ∧ FreshHasher t ∧ t.fault = .none ∧ t.status = 0x20#64 ∧ t.pending = rest ∧
      ∀ a, Memory.read t.mem a = Memory.read s.mem a ∨
        ∃ c ∈ cmdStores v { s with pending := rest }, c.1.toNat = a ∧ Memory.read t.mem a = c.2)

/-! ### Faults -/

/-- A faulted engine refuses commands (R186): a write of any value to CMD has no effect at all, and register reads and
writes to x[0..8] do what they always do. -/
def Obligations.FaultedEngineRefuses : Prop :=
  ∀ (s : State) (rest : List Access), s.fault ≠ .none →
    (∀ v, s.pending = .wr 0 v :: rest → step s = .next { s with pending := rest }) ∧
    (∀ i, exec i s = .next s) ∧
    (∀ n, s.pending = .rd n :: rest → ∃ t, step s = .next t ∧ t.returned = s.readReg n ∧ t.fault = s.fault) ∧
    (∀ (i : Fin 9) (v : Word), s.pending = .wr (8 + i.val) v :: rest →
      ∃ t, step s = .next t ∧ t.x[i] = v ∧ t.fault = s.fault)

/-- Only hardware reset clears FAULT, and it also reinitialises the hasher; a set code is never overwritten (R186, R190,
R201). -/
def Obligations.OnlyHardwareResetClearsFault : Prop :=
  ∀ (s t : State), s.fault ≠ .none → step s = .next t → t.fault ≠ s.fault →
    t.fault = .none ∧ FreshHasher t ∧ ∃ rest, s.pending = .hardReset :: rest ∨ ∃ v, s.pending = .resetDuring v :: rest

/-- The order in which one command's conditions are reported (R187): refusal, E_ILLEGAL, E_PHASE, E_LEN, E_BUS. -/
def Obligations.FaultPriority : Prop :=
  ∀ (s : State),
    (s.fault ≠ .none → ∀ v, writeCmd v s = .next s) ∧
    (s.fault = .none → ∀ v, (∀ i, decode v ≠ .ok i) → writeCmd v s = .next { s with fault := .illegal }) ∧
    (s.fault = .none → s.fin = true → ∀ v, (v = encode .update ∨ v = encode .final ∨ v = encode .finalr) →
      writeCmd v s = .next { s with fault := .phase }) ∧
    (s.fault = .none → s.lengths = .unequal → ∀ v, (v = encode .update ∧ s.fin = false ∨ v = encode .digest) →
      writeCmd v s = .next { s with fault := .len }) ∧
    (∀ v t, s.fault = .none → writeCmd v s = .next t → t.fault = .bus →
      (∃ i, decode v = .ok i) ∧
      ((v = encode .update ∨ v = encode .final ∨ v = encode .finalr) → s.fin = false) ∧
      ((v = encode .update ∨ v = encode .digest) → s.lengths ≠ .unequal))

/-- The condition of E_LEN (R183): at least two of LEN0..3 are non-zero and different. UPDATE with FIN = 0 and DIGEST then
raise it and change nothing else; with all non-zero lengths equal neither does. -/
def Obligations.LengthFault : Prop :=
  ∀ s : State, s.fault = .none →
    ((∃ l l', s.len l ≠ 0#64 ∧ s.len l' ≠ 0#64 ∧ s.len l ≠ s.len l') →
      exec .digest s = .next { s with fault := .len } ∧
      (s.fin = false → exec .update s = .next { s with fault := .len })) ∧
    ((∀ l l', s.len l ≠ 0#64 → s.len l' ≠ 0#64 → s.len l = s.len l') →
      (∀ t, exec .digest s = .next t → t.fault ≠ .len) ∧ (∀ t, exec .update s = .next t → t.fault ≠ .len))

/-- The contract faults happen before anything else (R185 a): after E_ILLEGAL, E_PHASE or E_LEN everything but FAULT is
exactly as before the command. -/
def Obligations.ContractFaultsChangeNothingElse : Prop :=
  ∀ (v : Word) (s t : State), s.fault = .none → writeCmd v s = .next t →
    (t.fault = .illegal ∨ t.fault = .phase ∨ t.fault = .len) → t = { s with fault := t.fault }

/-- PACK and UNPACK with a byte not admitted (R94, R95, R184, R185 b): E_BUS; PACK can have changed TS[D] only, UNPACK only
bytes of its destination, each then holding the value the completed command would have written. That of those only bytes the
platform admits can have changed is the model's inference from V18 (log 8, DEDUCED), not the wording of R185 b. -/
def Obligations.TranspositionBusFault : Prop :=
  (∀ (d : TsReg) (s : State), s.fault = .none →
    (∃ (l : Lane) (k : Fin 64), s.readable (s.ptr l + BitVec.ofNat 64 k.val) = false) →
    ∃ t, exec (.pack d) s = .next t ∧ t.fault = .bus ∧ SameTsBut d s t ∧ SameHasher s t ∧ SameSurroundings s t ∧
      SameMemory s t) ∧
  (∀ (k : TsReg) (s : State), s.fault = .none →
    (∃ i < 256, s.writable (s.dst + BitVec.ofNat 64 i) = false) →
    ∃ t, exec (.unpack k) s = .next t ∧ t.fault = .bus ∧ SameTs s t ∧ SameHasher s t ∧ SameSurroundings s t ∧
      ∀ a, Memory.read t.mem a = Memory.read s.mem a ∨
        ∃ (l : Lane) (j : Fin 64), (s.dst + BitVec.ofNat 64 (64 * l.val + j.val)).toNat = a ∧
          s.writable (s.dst + BitVec.ofNat 64 (64 * l.val + j.val)) = true ∧
          Memory.read t.mem a = unpackByte (s.tsReg k) l j.val)

/-- UPDATE with a source byte not readable (R143, R147 f, R185 b): E_BUS; what UPDATE cannot have written is unchanged,
namely TS[1..3], FIN, the rows of absent lanes, the buffer positions it does not fill, the LSKIP bits of active lanes and all
of data memory. -/
def Obligations.UpdateBusFault : Prop :=
  ∀ (s : State) (n : Word), s.fault = .none → s.fin = false → s.lengths = .common n →
    (∃ (l : Lane), s.active l = true ∧ ∃ k < n.toNat, s.readable (s.ptr l + BitVec.ofNat 64 k) = false) →
    ∃ t, exec .update s = .next t ∧ t.fault = .bus ∧ SameTsBut 0 s t ∧ t.fin = false ∧ SameSurroundings s t ∧ SameMemory s t ∧
      (∀ l, s.active l = false → t.bufRow l = s.bufRow l) ∧
      (∀ (l : Lane) (i : Fin 64), (∀ p, s.fill.val ≤ p → p < s.fill.val + n.toNat → p % 64 ≠ i.val) →
        (t.bufRow l)[i] = (s.bufRow l)[i]) ∧
      (∀ l, s.active l = true → t.lskip.getLsbD l.val = s.lskip.getLsbD l.val)

/-- FINAL and FINALR with a destination byte not writable, and DIGEST with a source byte not readable or a destination byte
not writable (R151, R152, R153, R185 b): E_BUS; TS[1..3] are unchanged, no byte outside the 128 destination bytes is written,
and where FINAL, FINALR or a DIGEST whose source bytes are all readable is broken off, a byte inside is as before or its digest
byte. That of the destination bytes only those the platform admits can have changed is the model's inference from V18 (log 8,
DEDUCED), not the wording of R185 b. -/
def Obligations.FinalizeBusFault : Prop :=
  (∀ (i : Instr) (s : State), i = .final ∨ i = .finalr → s.fault = .none → s.fin = false →
    (∃ k < 128, s.writable (s.dst + BitVec.ofNat 64 k) = false) →
    ∃ t, exec i s = .next t ∧ t.fault = .bus ∧ SameTsBut 0 s t ∧ SameSurroundings s t ∧
      ∀ a, Memory.read t.mem a = Memory.read s.mem a ∨
        ∃ (l : Lane) (j : Fin 32), (s.dst + BitVec.ofNat 64 (32 * l.val + j.val)).toNat = a ∧
          s.writable (s.dst + BitVec.ofNat 64 (32 * l.val + j.val)) = true ∧
          Memory.read t.mem a = unpackByte s.finalState l (32 + j.val)) ∧
  (∀ s : State, s.fault = .none → s.lengths ≠ .unequal →
    ((∃ k < 128, s.writable (s.dst + BitVec.ofNat 64 k) = false) ∨
      ∃ (l : Lane), s.active l = true ∧ ∃ k < (s.len l).toNat, s.readable (s.ptr l + BitVec.ofNat 64 k) = false) →
    ∃ t, exec .digest s = .next t ∧ t.fault = .bus ∧ SameTsBut 0 s t ∧ SameSurroundings s t ∧
      SameMemoryOutside s.dst 128 s t ∧
      ((∀ l, s.active l = true → ∀ k < (s.len l).toNat, s.readable (s.ptr l + BitVec.ofNat 64 k) = true) →
        ∀ a, Memory.read t.mem a = Memory.read s.mem a ∨
          ∃ (l : Lane) (j : Fin 32), (s.dst + BitVec.ofNat 64 (32 * l.val + j.val)).toNat = a ∧
            s.writable (s.dst + BitVec.ofNat 64 (32 * l.val + j.val)) = true ∧
            Memory.read t.mem a = unpackByte s.hashed.finalState l (32 + j.val)))

/-! ### Transposition -/

/-- `unpack(pack(b)) = b` and `pack(unpack(S)) = S` (R93). -/
def Obligations.TranspositionRoundTrip : Prop :=
  (∀ b : Vector Block 4, unpack (pack b) = b) ∧ (∀ S : TState, pack (unpack S) = S)

/-- PACK (R90, R91, R94): with every source byte readable, matrix element A[l][r][c] of TS[D] is the byte at PTR_l + 8c + r,
and nothing else changes. -/
def Obligations.PackResult : Prop :=
  ∀ (d : TsReg) (s : State), s.fault = .none →
    (∀ (l : Lane) (k : Fin 64), s.readable (s.ptr l + BitVec.ofNat 64 k.val) = true) →
    ∃ t, exec (.pack d) s = .next t ∧ OnlyTsChanged d s t ∧
      ∀ (l : Lane) (r c : Fin 8), (t.tsReg d).at l r c = readAt s.mem (s.ptr l) (8 * c.val + r.val)

/-- UNPACK (R92, R95): with every destination byte writable, byte k of lane l of `unpack(TS[S])` stands at DST + 64l + k, no
other byte is written and no register changes. -/
def Obligations.UnpackResult : Prop :=
  ∀ (k : TsReg) (s : State), s.fault = .none →
    (∀ i < 256, s.writable (s.dst + BitVec.ofNat 64 i) = true) →
    ∃ t, exec (.unpack k) s = .next t ∧
      (∀ (l : Lane) (r c : Fin 8),
        readAt t.mem (s.dst + BitVec.ofNat 64 (64 * l.val)) (8 * c.val + r.val) = (s.tsReg k).at l r c) ∧
      SameMemoryOutside s.dst 256 s t ∧ SameTs s t ∧ SameHasher s t ∧ t.fault = s.fault ∧ SameSurroundings s t ∧
      t.draws = s.draws

/-! ### Round primitives -/

/-- ARCP (R101, R102). -/
def Obligations.ArcpResult : Prop :=
  ∀ (d k : TsReg) (rnd : BitVec 4) (s : State), s.fault = .none → rnd.toNat ≤ 9 →
    ∃ t, exec (.arcp d k rnd) s = .next t ∧ OnlyTsChanged d s t ∧
      ∀ (l : Lane) (r c : Fin 8), (t.tsReg d).at l r c =
        if r = 0 then (s.tsReg k).at l r c ^^^ BitVec.ofNat 8 (16 * c.val) ^^^ BitVec.ofNat 8 rnd.toNat
        else (s.tsReg k).at l r c

/-- ARCQ (R103, R104). -/
def Obligations.ArcqResult : Prop :=
  ∀ (d k : TsReg) (rnd : BitVec 4) (s : State), s.fault = .none → rnd.toNat ≤ 9 →
    ∃ t, exec (.arcq d k rnd) s = .next t ∧ OnlyTsChanged d s t ∧
      ∀ (l : Lane) (r c : Fin 8), (t.tsReg d).at l r c =
        if r = 7 then (s.tsReg k).at l r c ^^^ 0xFF#8 ^^^ BitVec.ofNat 8 (16 * c.val) ^^^ BitVec.ofNat 8 rnd.toNat
        else (s.tsReg k).at l r c ^^^ 0xFF#8

/-- SUBB (R105, R106): the S-box of R105's table on every byte. -/
def Obligations.SubbResult : Prop :=
  ∀ (d k : TsReg) (s : State), s.fault = .none →
    ∃ t, exec (.subb d k) s = .next t ∧ OnlyTsChanged d s t ∧
      ∀ (l : Lane) (r c : Fin 8), (t.tsReg d).at l r c = sbox ((s.tsReg k).at l r c)

/-- R105's table is its formula over the inverse of R14, a bijection with no fixed point and not an involution. -/
def Obligations.SboxTableIsFormula : Prop :=
  (∀ a : Byte, ∃ y : Byte, (a ≠ 0#8 → gmul a y = 1#8) ∧ (a = 0#8 → y = 0#8) ∧
    sbox a = y ^^^ y.rotateLeft 1 ^^^ y.rotateLeft 2 ^^^ y.rotateLeft 3 ^^^ y.rotateLeft 4 ^^^ 0x63#8) ∧
  (∀ a : Byte, sbox a ≠ a) ∧ (∀ b : Byte, ∃ a : Byte, sbox a = b) ∧ sbox 0x00#8 = 0x63#8 ∧ sbox 0x63#8 = 0xfb#8

/-- SHBP (R107, R108) and SHBQ (R109, R110): row r of every lane moves to lower columns by sigmaP[r] = r, respectively
sigmaQ = (1, 3, 5, 7, 0, 2, 4, 6). -/
def Obligations.ShiftResults : Prop :=
  ∀ (d k : TsReg) (s : State), s.fault = .none →
    (∃ t, exec (.shbp d k) s = .next t ∧ OnlyTsChanged d s t ∧
      ∀ (l : Lane) (r c : Fin 8), (t.tsReg d).at l r c = (s.tsReg k).at l r (Fin.ofNat 8 (c.val + r.val))) ∧
    (∃ t, exec (.shbq d k) s = .next t ∧ OnlyTsChanged d s t ∧
      ∀ (l : Lane) (r c : Fin 8), (t.tsReg d).at l r c =
        (s.tsReg k).at l r (Fin.ofNat 8 (c.val + #v[1, 3, 5, 7, 0, 2, 4, 6][r])))

/-- MIXB (R111, R113): output row i of every column is the XOR over j of coef[(j - i) mod 8] times input row j. -/
def Obligations.MixbResult : Prop :=
  ∀ (d k : TsReg) (s : State), s.fault = .none →
    ∃ t, exec (.mixb d k) s = .next t ∧ OnlyTsChanged d s t ∧
      ∀ (l : Lane) (i c : Fin 8), (t.tsReg d).at l i c =
        ((List.finRange 8).map fun j => gmul (#v[0x02#8, 0x02#8, 0x03#8, 0x04#8, 0x05#8, 0x03#8, 0x05#8, 0x07#8][j - i])
          ((s.tsReg k).at l j c)).foldl (· ^^^ ·) 0#8

/-- The two-doubling form of MixBytes (R112) equals the matrix form, indices modulo 8. -/
def Obligations.MixBytesTwoDoublings : Prop :=
  ∀ (S : TState) (l : Lane) (i c : Fin 8),
    let a : Fin 8 → Byte := fun j => S.at l j c
    let x : Fin 8 → Byte := fun j => a j ^^^ a (j + 1)
    let y : Fin 8 → Byte := fun j => x j ^^^ x (j + 3)
    let z : Fin 8 → Byte := fun j => x j ^^^ x (j + 2) ^^^ a (j + 6)
    (mixBytes S).at l i c = xtime (xtime (y (i + 3)) ^^^ z (i + 7)) ^^^ z (i + 4)

/-- XORS (R114, R115). -/
def Obligations.XorsResult : Prop :=
  ∀ (d k j : TsReg) (s : State), s.fault = .none →
    ∃ t, exec (.xors d k j) s = .next t ∧ OnlyTsChanged d s t ∧
      ∀ (l : Lane) (r c : Fin 8), (t.tsReg d).at l r c = (s.tsReg k).at l r c ^^^ (s.tsReg j).at l r c

/-- The corner cases of R102, R104, R108, R110 and R113: ARCP and ARCQ twice restore the state, SHBP and SHBQ eight times are
the identity, MixBytes is linear. -/
def Obligations.PrimitiveCornerCases : Prop :=
  (∀ (S : TState) (i : Nat), arcP (arcP S i) i = S ∧ arcQ (arcQ S i) i = S) ∧
  (∀ S : TState, shiftP (shiftP (shiftP (shiftP (shiftP (shiftP (shiftP (shiftP S))))))) = S ∧
    shiftQ (shiftQ (shiftQ (shiftQ (shiftQ (shiftQ (shiftQ (shiftQ S))))))) = S) ∧
  (∀ S S' : TState, mixBytes (xorState S S') = xorState (mixBytes S) (mixBytes S'))

/-! ### Permutations and compression -/

/-- PERMP (R120, R121, R122): TS[D] is the last of the states S0 = TS[S], S(i+1) = MixBytes(ShiftP(SubBytes(ArcP(Si, i)))) for
i = 0..9 in order, and nothing else changes. -/
def Obligations.PermpResult : Prop :=
  ∀ (d k : TsReg) (s : State), s.fault = .none →
    ∃ t, exec (.permp d k) s = .next t ∧ OnlyTsChanged d s t ∧
      ∃ S : Fin 11 → TState, S 0 = s.tsReg k ∧
        (∀ i : Fin 10, S i.succ = mixBytes (shiftP (subBytes (arcP (S i.castSucc) i.val)))) ∧ t.tsReg d = S 10

/-- PERMQ (R120, R123, R124), with the steps of Q. -/
def Obligations.PermqResult : Prop :=
  ∀ (d k : TsReg) (s : State), s.fault = .none →
    ∃ t, exec (.permq d k) s = .next t ∧ OnlyTsChanged d s t ∧
      ∃ S : Fin 11 → TState, S 0 = s.tsReg k ∧
        (∀ i : Fin 10, S i.succ = mixBytes (shiftQ (subBytes (arcQ (S i.castSucc) i.val)))) ∧ t.tsReg d = S 10

/-- PERMP t, t equals the forty commands ROUNDP t, 0 .. ROUNDP t, 9, and PERMQ t, t the forty commands of ROUNDQ (R122, R124,
R80). -/
def Obligations.PermutationsAreTheirRounds : Prop :=
  ∀ (k : TsReg) (s : State), s.fault = .none →
    execAll (roundIndices.flatMap (roundpCommands k)) s = exec (.permp k k) s ∧
    execAll (roundIndices.flatMap (roundqCommands k)) s = exec (.permq k k) s

/-- CMPR (R131, R132): TS[D] is `h ^ P(h ^ m) ^ Q(m)` element by element, h = TS[S], m = TS[T]; nothing else changes, so
BLKCNT does not follow. -/
def Obligations.CmprResult : Prop :=
  ∀ (d k j : TsReg) (s : State), s.fault = .none →
    ∃ t, exec (.cmpr d k j) s = .next t ∧ OnlyTsChanged d s t ∧
      ∀ (l : Lane) (r c : Fin 8), (t.tsReg d).at l r c =
        (s.tsReg k).at l r c ^^^ (permP (xorState (s.tsReg k) (s.tsReg j))).at l r c ^^^ (permQ (s.tsReg j)).at l r c

/-- OUTX (R134, R135): TS[D] is `P(S) ^ S` element by element; nothing else changes. -/
def Obligations.OutxResult : Prop :=
  ∀ (d k : TsReg) (s : State), s.fault = .none →
    ∃ t, exec (.outx d k) s = .next t ∧ OnlyTsChanged d s t ∧
      ∀ (l : Lane) (r c : Fin 8), (t.tsReg d).at l r c = (permP (s.tsReg k)).at l r c ^^^ (s.tsReg k).at l r c

/-- CMPR td, ts, tt leaves in TS[D] what the composition `XORS t3,ts,tt; PERMP t3,t3; XORS t3,t3,ts; PERMQ tt,tt; XORS
td,t3,tt` leaves there (R132), and OUTX td, ts what `PERMP t3,ts; XORS td,t3,ts` leaves there (R135), for sources that are
not the scratch register t3. -/
def Obligations.CompressionComposes : Prop :=
  ∀ (d k j : TsReg) (s : State), s.fault = .none → k ≠ 3 →
    (j ≠ 3 → ∃ t u, exec (.cmpr d k j) s = .next t ∧
      execAll [.xors 3 k j, .permp 3 3, .xors 3 3 k, .permq j j, .xors d 3 j] s = .next u ∧ t.tsReg d = u.tsReg d) ∧
    (∃ t u, exec (.outx d k) s = .next t ∧ execAll [.permp 3 k, .xors d 3 k] s = .next u ∧ t.tsReg d = u.tsReg d)

/-- Lane independence (R16): lane l of the result of every function of files 40 to 43 depends on lane l of its arguments only,
and for the functions on states by the same function in every lane. -/
def Obligations.LanesAreIndependent : Prop :=
  (∀ F ∈ [fun S => arcP S 0, fun S => arcQ S 9, subBytes, shiftP, shiftQ, mixBytes, permP, permQ, outX],
    ∃ f : (Fin 8 → Fin 8 → Byte) → Fin 8 → Fin 8 → Byte,
      ∀ (S : TState) (l : Lane) (r c : Fin 8), (F S).at l r c = f (S.at l) r c) ∧
  (∀ i : Nat, ∃ f g : (Fin 8 → Fin 8 → Byte) → Fin 8 → Fin 8 → Byte,
    ∀ (S : TState) (l : Lane) (r c : Fin 8), (arcP S i).at l r c = f (S.at l) r c ∧ (arcQ S i).at l r c = g (S.at l) r c) ∧
  (∃ f : (Fin 8 → Fin 8 → Byte) → (Fin 8 → Fin 8 → Byte) → Fin 8 → Fin 8 → Byte,
    ∀ (h m : TState) (l : Lane) (r c : Fin 8), (compress h m).at l r c = f (h.at l) (m.at l) r c)

/-! ### The streaming commands -/

/-- RESET (R142): legal in every phase; the hasher fresh, STATUS 0x20, TS[1..3], x[0..8] and data memory unchanged. -/
def Obligations.ResetResult : Prop :=
  ∀ s : State, s.fault = .none →
    ∃ t, exec .reset s = .next t ∧ FreshHasher t ∧ t.status = 0x20#64 ∧ SameTsBut 0 s t ∧ t.fault = s.fault ∧
      SameSurroundings s t ∧ t.draws = s.draws ∧ SameMemory s t

/-- UPDATE with every LEN zero (R144): no state changes at all when FIN = 0, E_PHASE when FIN = 1. -/
def Obligations.EmptyUpdateIsNoOp : Prop :=
  ∀ s : State, s.fault = .none → (∀ l, s.len l = 0#64) →
    (s.fin = false → exec .update s = .next s) ∧
    (s.fin = true → exec .update s = .next { s with fault := .phase })

/-- UPDATE with data (R143, R145, R146), f = FILL and L the common length: (f + L) div 64 super-blocks are compressed in
order, BLKCNT counts them, FILL becomes (f + L) mod 64, the last bytes of each active lane's stream stand in its row of BUF,
untouched positions and the rows of absent lanes keep what they held, LSKIP gains the absent lanes, and nothing else changes. -/
def Obligations.UpdateAbsorbs : Prop :=
  ∀ (s : State) (n : Word), s.fault = .none → s.fin = false → s.lengths = .common n →
    (∀ l, s.active l = true → ∀ k < n.toNat, s.readable (s.ptr l + BitVec.ofNat 64 k) = true) →
    ∃ t, exec .update s = .next t ∧
      t.tsReg 0 = s.chainAfter ((s.fill.val + n.toNat) / 64) ∧
      t.blkcnt = s.blkcnt + BitVec.ofNat 64 ((s.fill.val + n.toNat) / 64) ∧
      t.fill.val = (s.fill.val + n.toNat) % 64 ∧
      (∀ l, s.active l = true → ∀ p, s.fill.val ≤ p → p < s.fill.val + n.toNat → s.fill.val + n.toNat ≤ p + 64 →
        (t.bufRow l)[p % 64]! = s.streamByte l p) ∧
      (∀ (l : Lane) (i : Fin 64), (∀ p, s.fill.val ≤ p → p < s.fill.val + n.toNat → p % 64 ≠ i.val) →
        (t.bufRow l)[i] = (s.bufRow l)[i]) ∧
      (∀ l, s.active l = false → t.bufRow l = s.bufRow l) ∧
      (∀ l : Lane, t.lskip.getLsbD l.val = (s.lskip.getLsbD l.val || !s.active l)) ∧
      SameTsBut 0 s t ∧ t.fin = s.fin ∧ t.fault = s.fault ∧ SameSurroundings s t ∧ t.draws = s.draws ∧ SameMemory s t

/-- The padding blocks (R148) and the count (R149), for r buffered bytes of a row: with r < 56 one block, the r bytes, 0x80,
zeros(55 - r) and be64(T); otherwise the r bytes, 0x80 and zeros(63 - r), and a second block zeros(56) ++ be64(T). -/
def Obligations.PaddingBlocks : Prop :=
  (∀ (row : Block) (r : Fin 64) (T : Word),
    (r.val < 56 → (padFirst row r.val T).toList =
      row.toList.take r.val ++ [0x80#8] ++ List.replicate (55 - r.val) 0x00#8 ++ (List.range 8).map (be64 T)) ∧
    (56 ≤ r.val → (padFirst row r.val T).toList =
      row.toList.take r.val ++ [0x80#8] ++ List.replicate (63 - r.val) 0x00#8)) ∧
  (∀ T : Word, (padSecond T).toList = List.replicate 56 0x00#8 ++ (List.range 8).map (be64 T)) ∧
  (∀ s : State, s.finalCount = s.blkcnt + (if s.fill.val < 56 then 1#64 else 2#64))

/-- FINAL (R148 to R151, R154): with FIN = 0 and the 128 destination bytes writable, H is compressed with the padding block or
blocks and put through the output transformation, bytes 32..63 of each lane stand at DST + 32l, BLKCNT is T, FILL 0, FIN 1;
BUF, LSKIP, TS[1..3] and every other byte of data memory are unchanged. -/
def Obligations.FinalResult : Prop :=
  ∀ s : State, s.fault = .none → s.fin = false →
    (∀ i < 128, s.writable (s.dst + BitVec.ofNat 64 i) = true) →
    ∃ t, exec .final s = .next t ∧
      (let T := s.blkcnt + (if s.fill.val < 56 then 1#64 else 2#64)
       let first := compress (s.tsReg 0) (pack (Vector.ofFn fun l => padFirst (s.bufRow l) s.fill.val T))
       t.blkcnt = T ∧
       t.tsReg 0 = outX (if s.fill.val < 56 then first else compress first (pack (Vector.replicate 4 (padSecond T))))) ∧
      t.fill = 0 ∧ t.fin = true ∧ t.status = 0x10#64 ||| (s.lskip.setWidth 64 <<< 8) ∧
      DigestsStored s.dst (t.tsReg 0) t ∧ SameMemoryOutside s.dst 128 s t ∧
      t.buf = s.buf ∧ t.lskip = s.lskip ∧ SameTsBut 0 s t ∧ t.fault = s.fault ∧ SameSurroundings s t ∧ t.draws = s.draws

/-- FINALR (R152) equals `FINAL; RESET`: the same digests, then a fresh hasher. -/
def Obligations.FinalrResult : Prop :=
  ∀ s : State, s.fault = .none → s.fin = false →
    (∀ i < 128, s.writable (s.dst + BitVec.ofNat 64 i) = true) →
    ∃ t u, exec .finalr s = .next t ∧ exec .final s = .next u ∧ exec .reset u = .next t ∧
      FreshHasher t ∧ t.status = 0x20#64 ∧ t.mem = u.mem ∧ DigestsStored s.dst (u.tsReg 0) t ∧ SameMemoryOutside s.dst 128 s t ∧
      SameTsBut 0 s t ∧ t.fault = s.fault ∧ SameSurroundings s t ∧ t.draws = s.draws

/-- DIGEST (R153) equals `RESET; UPDATE; FINALR`, in every phase, when the non-zero lengths agree and every byte it needs is
admitted. -/
def Obligations.DigestResult : Prop :=
  ∀ s : State, s.fault = .none → s.lengths ≠ .unequal →
    (∀ l, s.active l = true → ∀ k < (s.len l).toNat, s.readable (s.ptr l + BitVec.ofNat 64 k) = true) →
    (∀ i < 128, s.writable (s.dst + BitVec.ofNat 64 i) = true) →
    ∃ t, exec .digest s = .next t ∧ execAll [.reset, .update, .finalr] s = .next t ∧
      FreshHasher t ∧ t.status = 0x20#64 ∧ SameMemoryOutside s.dst 128 s t ∧ SameTsBut 0 s t ∧ t.fault = s.fault ∧
      SameSurroundings s t ∧ t.draws = s.draws

/-- With FIN = 1 (R155): UPDATE, FINAL and FINALR raise E_PHASE and change nothing else; RESET and DIGEST are legal, that is
they never raise E_PHASE, and return the hasher to Empty; the commands of files 40 to 43 do what they do with FIN = 0. -/
def Obligations.FinalizedPhase : Prop :=
  ∀ s : State, s.fault = .none → s.fin = true →
    (∀ i ∈ [Instr.update, .final, .finalr], exec i s = .next { s with fault := .phase }) ∧
    (∀ i ∈ [Instr.reset, .digest], ∃ t, exec i s = .next t ∧ t.fault ≠ .phase ∧ (t.fault = .none → FreshHasher t)) ∧
    exec .reset s = exec .reset { s with fin := false } ∧
    (∀ i : Instr, i ∉ [Instr.reset, .update, .final, .finalr, .digest] → i.wellFormed = true →
      ∃ t, exec i { s with fin := false } = .next t ∧ exec i s = .next { t with fin := true })

/-- TS[1..3] are inputs of no command of file 44 (R175): changing one beforehand changes the outcome in that register only. -/
def Obligations.StreamIgnoresScratchRegisters : Prop :=
  ∀ i ∈ [Instr.reset, .update, .final, .finalr, .digest], ∀ (k : TsReg) (S : TState) (s t : State), k ≠ 0 →
    exec i s = .next t → exec i (s.setTs k S) = .next (t.setTs k S)

/-- Split-update equivalence (R174): UPDATE of the first n1 bytes, then of the next n2, leaves what one UPDATE of all n1 + n2
leaves, in every piece of state but the operand registers; either part may be empty. -/
def Obligations.SplitUpdateEquivalence : Prop :=
  ∀ (s : State) (p : Lane → Word) (n1 n2 : Nat), s.fault = .none → s.fin = false → n1 + n2 < 2 ^ 64 →
    (∀ (l : Lane), ∀ k < n1 + n2, s.readable (p l + BitVec.ofNat 64 k) = true) →
    ∃ a b c, exec .update (s.withSources p (BitVec.ofNat 64 n1)) = .next a ∧
      exec .update (a.withSources (fun l => p l + BitVec.ofNat 64 n1) (BitVec.ofNat 64 n2)) = .next b ∧
      exec .update (s.withSources p (BitVec.ofNat 64 (n1 + n2))) = .next c ∧
      b.withSources p (BitVec.ofNat 64 (n1 + n2)) = c

/-- Single-shot equivalence (R172, R173): with the same length n in all four lanes and every byte admitted, DIGEST writes at
DST + 32l the 32 bytes of Groestl256 of the n bytes at PTR_l. -/
def Obligations.DigestIsGroestl256 : Prop :=
  ∀ (s : State) (n : Word), s.fault = .none → (∀ l, s.len l = n) →
    (∀ (l : Lane), ∀ k < n.toNat, s.readable (s.ptr l + BitVec.ofNat 64 k) = true) →
    (∀ i < 128, s.writable (s.dst + BitVec.ofNat 64 i) = true) →
    ∃ t, exec .digest s = .next t ∧
      ∀ l : Lane, readBytes t.mem (s.dst + BitVec.ofNat 64 (32 * l.val)) 32 = groestl256 (readBytes s.mem (s.ptr l) n.toNat)

/-- Streams (R173, second form), lane by lane: a fresh hasher has absorbed the empty message in every lane; an UPDATE that has
data for the lane appends that data to the lane's message, however much was absorbed before; and FINAL then writes the
Groestl256 of the message at DST + 32l. What the other lanes did does not matter. -/
def Obligations.StreamDigestIsGroestl256 : Prop :=
  ∀ (s : State) (l : Lane),
    (FreshHasher s → s.hasAbsorbed l []) ∧
    (∀ msg n, s.hasAbsorbed l msg → s.fault = .none → s.lengths = .common n → s.active l = true →
      (∀ j, s.active j = true → ∀ k < n.toNat, s.readable (s.ptr j + BitVec.ofNat 64 k) = true) →
      ∃ t, exec .update s = .next t ∧ t.fault = .none ∧ t.hasAbsorbed l (msg ++ readBytes s.mem (s.ptr l) n.toNat)) ∧
    (∀ msg, s.hasAbsorbed l msg → s.fault = .none → (∀ i < 128, s.writable (s.dst + BitVec.ofNat 64 i) = true) →
      ∃ t, exec .final s = .next t ∧
        readBytes t.mem (s.dst + BitVec.ofNat 64 (32 * l.val)) 32 = groestl256 msg)

/-- The empty string in all four lanes (R177): FINAL or FINALR on an Empty hasher whose chaining value is IV, or DIGEST with
every LEN zero, writes the standard digest of the empty string in all four slots. -/
def Obligations.EmptyStringDigest : Prop :=
  let digest : List Byte :=
    [0x1a#8, 0x52#8, 0xd1#8, 0x1d#8, 0x55#8, 0x00#8, 0x39#8, 0xbe#8, 0x16#8, 0x10#8, 0x7f#8, 0x9c#8, 0x58#8, 0xdb#8, 0x9e#8, 0xbc#8]
    ++ [0xc4#8, 0x17#8, 0xf1#8, 0x6f#8, 0x73#8, 0x6a#8, 0xdb#8, 0x25#8, 0x02#8, 0x56#8, 0x71#8, 0x19#8, 0xf0#8, 0x08#8, 0x34#8, 0x67#8]
  ∀ s : State, s.fault = .none → (∀ i < 128, s.writable (s.dst + BitVec.ofNat 64 i) = true) →
    ∀ i, ((i = .final ∨ i = .finalr) ∧ s.isEmpty = true ∧ s.tsReg 0 = iv ∨ i = .digest ∧ ∀ l, s.len l = 0#64) →
      ∃ t, exec i s = .next t ∧
        ∀ l : Lane, readBytes t.mem (s.dst + BitVec.ofNat 64 (32 * l.val)) 32 = digest

/-! ### Rules about the whole machine -/

/-- No command writes an operand register, the platform's parameters or the host's accesses (R34). -/
def Obligations.NoCommandWritesOperandRegisters : Prop :=
  ∀ (i : Instr) (s t : State), exec i s = .next t → SameSurroundings s t

/-- Which commands touch data memory (R50, R57), whether they complete or fault: UNPACK at most the 256 bytes at DST, FINAL,
FINALR and DIGEST at most the 128 bytes at DST, no other command any byte. -/
def Obligations.OnlyStoringCommandsWriteMemory : Prop :=
  ∀ (i : Instr) (s t : State), exec i s = .next t →
    ((∃ k, i = .unpack k) → SameMemoryOutside s.dst 256 s t) ∧
    (i ∈ [Instr.final, .finalr, .digest] → SameMemoryOutside s.dst 128 s t) ∧
    ((∀ k, i ≠ .unpack k) → i ∉ [Instr.final, .finalr, .digest] → SameMemory s t)

/-- A range is admitted iff each of its bytes is, addresses wrapping modulo 2^64 (R51, R52, R53, R54): PACK faults with E_BUS
iff one of the 256 bytes it reads is not readable, UNPACK iff one of the 256 it writes is not writable. -/
def Obligations.AdmissionByByte : Prop :=
  ∀ (s t : State) (k : TsReg), s.fault = .none →
    (exec (.pack k) s = .next t →
      (t.fault = .bus ↔ ∃ (l : Lane) (i : Fin 64), s.readable (s.ptr l + BitVec.ofNat 64 i.val) = false)) ∧
    (exec (.unpack k) s = .next t →
      (t.fault = .bus ↔ ∃ i < 256, s.writable (s.dst + BitVec.ofNat 64 i) = false))

/-- LSKIP is only ever set by UPDATE (and inside DIGEST), and cleared only by a reset of the hasher (R31), where no fault is
raised: any other command leaves it, and UPDATE adds the absent lanes of a call that has data. -/
def Obligations.LskipDiscipline : Prop :=
  ∀ (i : Instr) (s t : State), s.fault = .none → exec i s = .next t → t.fault = .none →
    (i ∈ [Instr.reset, .finalr, .digest] → t.lskip = 0#4) ∧
    (i = .update → ∀ l : Lane, t.lskip.getLsbD l.val = (s.lskip.getLsbD l.val || (!s.active l && decide (∃ j, s.active j = true)))) ∧
    (i ∉ [Instr.reset, .finalr, .digest, .update] → t.lskip = s.lskip)

/-- The host's own accesses to data memory (R50, R61): a load after a store of the same address returns the byte stored, a
store changes that byte only, and neither touches the engine. -/
def Obligations.HostMemoryAccess : Prop :=
  ∀ (s : State) (a : Word) (b : Byte) (rest : List Access),
    (s.pending = .store a b :: rest →
      ∃ t, step s = .next t ∧ (∀ k, Memory.read t.mem k = if k = a.toNat then b else Memory.read s.mem k) ∧
        t = { s with pending := rest, mem := t.mem }) ∧
    (s.pending = .load a :: rest →
      step s = .next { s with pending := rest, returned := (Memory.read s.mem a.toNat).setWidth 64 })

/-- The canonical form of data memory (the model's own, log 5) holds at reset. -/
def Obligations.ResetMemoryCanonical : Prop := State.reset.Inv

/-- Every step keeps the canonical form of data memory (the model's own, log 5), whatever the host does. -/
def Obligations.StepKeepsMemoryCanonical : Prop :=
  ∀ s t : State, s.Inv → step s = .next t → t.Inv
end

