-- ==== Sys2Proof/Laws/Bytes.lean ====
section
/-! SUPPORT. The byte view of 256-bit words: what byte j of an assembled, combined or doubled word is, and that its bytes
determine a word. -/

namespace Sys2Proof.Laws

open Sys2Proof.Machine

theorem getLsbD_byteOf (w : SimdWord) (j k : Nat) :
    (byteOf w j).getLsbD k = (decide (k < 8) && w.getLsbD (8 * j + k)) := by
  simp [byteOf]

/-- Bit i of an assembled word is bit i mod 8 of its byte i div 8. -/
theorem getLsbD_ofBytesUpTo (g : Nat → Byte) (n : Nat) (hn : n ≤ 32) (i : Nat) :
    (ofBytesUpTo g n).getLsbD i = (decide (i < 8 * n) && (g (i / 8)).getLsbD (i % 8)) := by
  induction n with
  | zero => simp [ofBytesUpTo]
  | succ n ih =>
    simp only [ofBytesUpTo, BitVec.getLsbD_or, ih (by omega), BitVec.getLsbD_shiftLeft, BitVec.getLsbD_setWidth]
    by_cases h1 : i < 8 * n
    · have h2 : i < 8 * (n + 1) := by omega
      simp [h1, h2]
    · by_cases h2 : i < 8 * (n + 1)
      · have hd : i / 8 = n := by omega
        have hm : i - 8 * n = i % 8 := by omega
        have h3 : i < 256 := by omega
        have h4 : i % 8 < 256 := by omega
        simp [h1, h2, h3, h4, hd, hm]
      · have hge : 8 ≤ i - 8 * n := by omega
        simp [h1, h2, BitVec.getLsbD_of_ge _ _ hge]

@[simp] theorem byteOf_ofBytes (g : Nat → Byte) {j : Nat} (hj : j < 32) : byteOf (ofBytes g) j = g j := by
  apply BitVec.eq_of_getLsbD_eq
  intro k hk
  rw [getLsbD_byteOf, ofBytes, getLsbD_ofBytesUpTo g 32 (by omega)]
  have h1 : 8 * j + k < 8 * 32 := by omega
  have h2 : (8 * j + k) / 8 = j := by omega
  have h3 : (8 * j + k) % 8 = k := by omega
  rw [h2, h3]
  simp [hk, h1]

@[simp] theorem byteOf_zero (j : Nat) : byteOf 0#256 j = 0#8 := by
  apply BitVec.eq_of_getLsbD_eq
  intro k _
  simp [getLsbD_byteOf]

@[simp] theorem byteOf_xor (w v : SimdWord) (j : Nat) : byteOf (w ^^^ v) j = byteOf w j ^^^ byteOf v j := by
  apply BitVec.eq_of_getLsbD_eq
  intro k _
  simp only [getLsbD_byteOf, BitVec.getLsbD_xor]
  cases decide (k < 8) <;> simp

/-- A word written as a numeral: each byte read off (for the constants of the hardware). -/
theorem byteOf_eq_of_toNat (w : SimdWord) (j : Nat) : byteOf w j = BitVec.ofNat 8 (w.toNat >>> (8 * j)) := by
  simp [byteOf, BitVec.extractLsb']

/-- A word is determined by its 32 bytes. -/
theorem word_ext {w v : SimdWord} (h : ∀ j < 32, byteOf w j = byteOf v j) : w = v := by
  apply BitVec.eq_of_getLsbD_eq
  intro i hi
  have hb := congrArg (fun b => b.getLsbD (i % 8)) (h (i / 8) (by omega))
  simp only [getLsbD_byteOf] at hb
  have h1 : 8 * (i / 8) + i % 8 = i := by omega
  have h2 : i % 8 < 8 := by omega
  simpa [h1, h2] using hb

/-- The doubling bit by bit: a shift, and 0x1B (bits 0, 1, 3, 4) added where bit 7 was set (R14). -/
theorem getLsbD_xtime : ∀ (a : Byte), ∀ k < 8, (xtime a).getLsbD k =
    (((decide (0 < k)) && a.getLsbD (k - 1)) ^^ (a.getLsbD 7 && (decide (k = 0) || decide (k = 1) || decide (k = 3) || decide (k = 4)))) := by
  decide +kernel

/-- The mask of the lowest bit of every byte. -/
theorem getLsbD_lowBits : ∀ i < 256,
    (0x0101010101010101010101010101010101010101010101010101010101010101#256).getLsbD i = decide (i % 8 = 0) := by
  decide +kernel

/-- The mask of all bits but the lowest of every byte. -/
theorem getLsbD_highBits : ∀ i < 256,
    (0xfefefefefefefefefefefefefefefefefefefefefefefefefefefefefefefefe#256).getLsbD i = decide (i % 8 ≠ 0) := by
  decide +kernel

/-- The bits 7 of the bytes of a word, each moved to its byte's bit 0. -/
theorem getLsbD_topBits (w : SimdWord) {i : Nat} (hi : i < 256) :
    ((w >>> 7) &&& 0x0101010101010101010101010101010101010101010101010101010101010101#256).getLsbD i
      = (decide (i % 8 = 0) && w.getLsbD (i + 7)) := by
  rw [BitVec.getLsbD_and, BitVec.getLsbD_ushiftRight, getLsbD_lowBits i hi, Bool.and_comm, Nat.add_comm]

/-- The doubling of a word doubles each of its bytes. -/
theorem byteOf_xtimeWord (w : SimdWord) {j : Nat} (hj : j < 32) : byteOf (xtimeWord w) j = xtime (byteOf w j) := by
  apply BitVec.eq_of_getLsbD_eq
  intro k hk
  rw [getLsbD_xtime _ k hk, getLsbD_byteOf, getLsbD_byteOf, getLsbD_byteOf]
  have hi : 8 * j + k < 256 := by omega
  have top (m : Nat) (hm : m ≤ k) : ((w >>> 7 &&& 0x0101010101010101010101010101010101010101010101010101010101010101#256) <<< m).getLsbD (8 * j + k)
      = (decide (k = m) && w.getLsbD (8 * j + 7)) := by
    rw [BitVec.getLsbD_shiftLeft, getLsbD_topBits w (by omega)]
    by_cases h : k = m
    · subst h
      simp [hi]
    · have : ¬ (8 * j + k - m) % 8 = 0 := by omega
      simp [h, this]
  have topLow (m : Nat) (hm : k < m) (hm5 : m ≤ 5): ((w >>> 7 &&& 0x0101010101010101010101010101010101010101010101010101010101010101#256) <<< m).getLsbD (8 * j + k)
      = false := by
    rw [BitVec.getLsbD_shiftLeft]
    by_cases hlt : 8 * j + k < m
    · simp [hlt]
    · rw [getLsbD_topBits w (by omega)]
      have : ¬ (8 * j + k - m) % 8 = 0 := by omega
      simp [this]
  have shifted : (w <<< 1 &&& 0xfefefefefefefefefefefefefefefefefefefefefefefefefefefefefefefefe#256).getLsbD (8 * j + k)
      = (decide (0 < k) && w.getLsbD (8 * j + (k - 1))) := by
    rw [BitVec.getLsbD_and, BitVec.getLsbD_shiftLeft, getLsbD_highBits _ hi]
    by_cases h0 : k = 0
    · subst h0
      simp
    · have h1 : ¬ k % 8 = 0 := by omega
      have h3 : 8 * j + k - 1 = 8 * j + (k - 1) := by omega
      have h4 : 0 < k := by omega
      simp [hi, h1, h3, h4, h0]
  have top0 := top 0 (by omega)
  rw [BitVec.shiftLeft_zero] at top0
  have top1 := if h : 1 ≤ k then top 1 h else (topLow 1 (by omega) (by omega)).trans (by simp [show ¬ k = 1 by omega])
  have top3 := if h : 3 ≤ k then top 3 h else (topLow 3 (by omega) (by omega)).trans (by simp [show ¬ k = 3 by omega])
  have top4 := if h : 4 ≤ k then top 4 h else (topLow 4 (by omega) (by omega)).trans (by simp [show ¬ k = 4 by omega])
  simp only [xtimeWord, BitVec.getLsbD_xor, shifted, top0, top1, top3, top4]
  interval_cases k <;> simp

/-- The same, repeated. -/
theorem byteOf_xtimeWordIter (n : Nat) (w : SimdWord) {j : Nat} (hj : j < 32) :
    byteOf (xtimeWordIter n w) j = xtimeIter n (byteOf w j) := by
  induction n with
  | zero => rfl
  | succ n ih => rw [xtimeWordIter, byteOf_xtimeWord _ hj, ih, xtimeIter]

theorem byteOf_gmulWordUpTo (c : Byte) (w : SimdWord) {j : Nat} (hj : j < 32) (n : Nat) :
    byteOf (gmulWordUpTo c w n) j = gmulUpTo c (byteOf w j) n := by
  induction n with
  | zero => simp [gmulWordUpTo, gmulUpTo]
  | succ n ih =>
    rw [gmulWordUpTo, gmulUpTo, byteOf_xor, ih]
    split
    · rw [byteOf_xtimeWordIter _ _ hj]
    · rw [byteOf_zero]

/-- A word times a constant is each of its bytes times the constant (R111). -/
theorem byteOf_gmulWord (c : Byte) (w : SimdWord) {j : Nat} (hj : j < 32) :
    byteOf (gmulWord c w) j = gmul c (byteOf w j) := byteOf_gmulWordUpTo c w hj 8

/-! ### 64-bit values as eight bytes -/

/-- A 64-bit value is put together again from its eight bytes (R11). -/
theorem word64_of_bytes (v : Word) (b : Fin 8 → Byte) (h : ∀ i : Fin 8, b i = v.extractLsb' (8 * i.val) 8) : word64 b = v := by
  apply BitVec.eq_of_getLsbD_eq
  intro i hi
  simp only [word64, h, BitVec.getLsbD_append, BitVec.getLsbD_extractLsb']
  have hlast : i - 8 - 8 - 8 - 8 - 8 - 8 - 8 < 8 := by omega
  repeat' split
  all_goals
    simp only [*, decide_true, Bool.true_and]
    refine congrArg v.getLsbD ?_
    omega

end Sys2Proof.Laws
end

