-- ==== Sys2Proof/Laws/Lanes.lean ====
section
/-! SUPPORT. The matrix view (R15): what every function on transposed states does to the element A[l][r][c], and that the
elements determine the state. -/

namespace Sys2Proof.Laws

open Sys2Proof.Machine

@[simp] theorem word_ofWords (f : Fin 8 → SimdWord) (r : Fin 8) : (TState.ofWords f).word r = f r := by
  fin_cases r <;> rfl

theorem at_ofWords (f : Fin 8 → SimdWord) (l : Lane) (r c : Fin 8) :
    (TState.ofWords f).at l r c = byteOf (f r) (8 * l.val + c.val) := by
  simp [TState.at]

theorem lane_index_lt (l : Lane) (c : Fin 8) : 8 * l.val + c.val < 32 := by omega

theorem laneOf_index (l : Lane) (c : Fin 8) : (8 * l.val + c.val) / 8 = l.val := by omega

theorem columnOf_index (l : Lane) (c : Fin 8) : (8 * l.val + c.val) % 8 = c.val := by omega

/-- Two states with the same words are equal. -/
theorem state_ext_word {S S' : TState} (h : ∀ r, S.word r = S'.word r) : S = S' := by
  cases S with | mk w => cases S' with | mk w' =>
  congr 1
  ext i hi : 1
  exact h ⟨i, hi⟩

/-- Two states with the same matrix elements are equal (R15, R24). -/
theorem state_ext {S S' : TState} (h : ∀ l r c, S.at l r c = S'.at l r c) : S = S' := by
  refine state_ext_word fun r => word_ext fun j hj => ?_
  have := h ⟨j / 8, by omega⟩ r ⟨j % 8, by omega⟩
  simpa [TState.at, Nat.div_add_mod] using this

@[simp] theorem at_ofMatrix (A : Lane → Fin 8 → Fin 8 → Byte) (l : Lane) (r c : Fin 8) :
    (TState.ofMatrix A).at l r c = A l r c := by
  have hl : Fin.ofNat 4 l.val = l := Fin.ext (Nat.mod_eq_of_lt l.isLt)
  have hc : Fin.ofNat 8 c.val = c := Fin.ext (Nat.mod_eq_of_lt c.isLt)
  rw [TState.ofMatrix, at_ofWords, byteOf_ofBytes _ (lane_index_lt l c), laneOf_index, columnOf_index, hl, hc]

/-- R114. -/
@[simp] theorem at_xorState (S S' : TState) (l : Lane) (r c : Fin 8) :
    (xorState S S').at l r c = S.at l r c ^^^ S'.at l r c := by
  simp [xorState, TState.at]

/-- R26 in the matrix view. -/
theorem at_iv : ∀ (l : Lane) (r c : Fin 8), iv.at l r c = if r = 6 ∧ c = 7 then 0x01#8 else 0x00#8 := by
  decide +kernel

/-! ### Transposition -/

/-- R91. -/
theorem at_pack (b : Vector Block 4) (l : Lane) (r c : Fin 8) :
    (pack b).at l r c = (b[l])[8 * c.val + r.val]'(by omega) := by
  simp [pack]

/-- R92. -/
theorem get_unpack (S : TState) (l : Lane) (k : Fin 64) : ((unpack S)[l])[k] = unpackByte S l k.val := by
  simp [unpack]

theorem unpackByte_index (S : TState) (l : Lane) (r c : Fin 8) : unpackByte S l (8 * c.val + r.val) = S.at l r c := by
  have h1 : (8 * c.val + r.val) % 8 = r.val := by omega
  have h2 : (8 * c.val + r.val) / 8 = c.val := by omega
  have hr : Fin.ofNat 8 r.val = r := Fin.ext (Nat.mod_eq_of_lt r.isLt)
  have hc : Fin.ofNat 8 c.val = c := Fin.ext (Nat.mod_eq_of_lt c.isLt)
  rw [unpackByte, h1, h2, hr, hc]

/-- Byte k of lane l survives packing and unpacking (R93). -/
theorem unpackByte_pack (b : Vector Block 4) (l : Lane) (k : Fin 64) : unpackByte (pack b) l k.val = (b[l])[k] := by
  have hk : 8 * (k.val / 8) + k.val % 8 = k.val := Nat.div_add_mod k.val 8
  have h := unpackByte_index (pack b) l ⟨k.val % 8, by omega⟩ ⟨k.val / 8, by omega⟩
  rw [at_pack] at h
  simpa [hk] using h

/-! ### Round primitives -/

theorem byteOf_roundConstant (i : Nat) (l : Lane) (c : Fin 8) :
    byteOf (roundConstant i) (8 * l.val + c.val) = BitVec.ofNat 8 (16 * c.val) ^^^ BitVec.ofNat 8 i := by
  rw [roundConstant, byteOf_ofBytes _ (lane_index_lt l c), columnOf_index]

theorem byteOf_onesMask : ∀ j < 32, byteOf onesMask j = 0xFF#8 := by decide +kernel

/-- R101. -/
theorem at_arcP (S : TState) (i : Nat) (l : Lane) (r c : Fin 8) :
    (arcP S i).at l r c
      = if r = 0 then S.at l 0 c ^^^ BitVec.ofNat 8 (16 * c.val) ^^^ BitVec.ofNat 8 i else S.at l r c := by
  rw [arcP, at_ofWords]
  split
  · rw [byteOf_xor, byteOf_roundConstant, BitVec.xor_assoc]
    rfl
  · rfl

/-- R103. -/
theorem at_arcQ (S : TState) (i : Nat) (l : Lane) (r c : Fin 8) :
    (arcQ S i).at l r c
      = if r = 7 then S.at l 7 c ^^^ 0xFF#8 ^^^ BitVec.ofNat 8 (16 * c.val) ^^^ BitVec.ofNat 8 i
        else S.at l r c ^^^ 0xFF#8 := by
  rw [arcQ, at_ofWords]
  split
  · rw [byteOf_xor, byteOf_xor, byteOf_roundConstant, byteOf_onesMask _ (lane_index_lt l c), ← BitVec.xor_assoc]
    rfl
  · rw [byteOf_xor, byteOf_onesMask _ (lane_index_lt l c)]
    rfl

/-- R105. -/
@[simp] theorem at_subBytes (S : TState) (l : Lane) (r c : Fin 8) : (subBytes S).at l r c = sbox (S.at l r c) := by
  rw [subBytes, at_ofWords, byteOf_ofBytes _ (lane_index_lt l c)]
  rfl

/-- R107, R109: the byte in column c comes from column (c + sigma r) mod 8. -/
theorem at_shiftBytes (sigma : Fin 8 → Nat) (S : TState) (l : Lane) (r c : Fin 8) :
    (shiftBytes sigma S).at l r c = S.at l r (Fin.ofNat 8 (c.val + sigma r)) := by
  rw [shiftBytes, at_ofWords, byteOf_ofBytes _ (lane_index_lt l c), laneOf_index, columnOf_index]
  rfl

/-- The XOR over j < n of coef[(j - i) mod 8] * A[l][j][c] (R111). -/
def mixSumUpTo (S : TState) (l : Lane) (i c : Fin 8) : Nat → Byte
  | 0 => 0#8
  | n + 1 => mixSumUpTo S l i c n ^^^ gmul (mixCoef (n + 8 - i.val)) (S.at l (Fin.ofNat 8 n) c)

theorem byteOf_mixRowUpTo (S : TState) (l : Lane) (i c : Fin 8) (n : Nat) :
    byteOf (mixRowUpTo S i n) (8 * l.val + c.val) = mixSumUpTo S l i c n := by
  induction n with
  | zero => simp [mixRowUpTo, mixSumUpTo]
  | succ n ih =>
    rw [mixRowUpTo, mixSumUpTo, byteOf_xor, ih, byteOf_gmulWord _ _ (lane_index_lt l c)]
    rfl

/-- R111, for one element. -/
theorem at_mixBytes (S : TState) (l : Lane) (i c : Fin 8) : (mixBytes S).at l i c = mixSumUpTo S l i c 8 := by
  rw [mixBytes, at_ofWords, byteOf_mixRowUpTo]

end Sys2Proof.Laws
end

