-- ==== Sys2Proof/Laws/Memory.lean ====
section
/-! SUPPORT. The laws of data memory: reading after writing, what a run of stores changes, and that every operation keeps the
canonical form. -/

namespace Sys2Proof.Laws

open Sys2Proof.Machine

theorem read_erase (m : List Host.Cell) (a k : Nat) :
    Memory.read (Memory.erase m a) k = if k = a then blankByte else Memory.read m k := by
  induction m with
  | nil => simp [Memory.erase, Memory.read]
  | cons c rest ih =>
    obtain ⟨j, b⟩ := c
    by_cases h : j = a <;> by_cases hk : j = k <;> simp_all [Memory.erase, Memory.read, eq_comm]

theorem read_insert (m : List Host.Cell) (a : Nat) (b : Byte) (k : Nat)
    (hfree : ∀ c ∈ m, c.1 ≠ a) :
    Memory.read (Memory.insert m a b) k = if k = a then b else Memory.read m k := by
  induction m with
  | nil => by_cases hk : a = k <;> simp_all [Memory.insert, Memory.read, eq_comm]
  | cons c rest ih =>
    obtain ⟨j, d⟩ := c
    have hj : j ≠ a := hfree (j, d) (by simp)
    have ih := ih (fun c hc => hfree c (by simp [hc]))
    rw [Memory.insert]
    split
    · rw [Memory.read]
      by_cases hk : k = a
      · rw [if_pos hk, if_pos hk.symm]
      · rw [if_neg hk, if_neg (fun h => hk h.symm)]
    · by_cases hk : j = k
      · subst hk
        simp [Memory.read, hj]
      · simp [Memory.read, hk, ih]

theorem erase_free (m : List Host.Cell) (a : Nat) : ∀ c ∈ Memory.erase m a, c.1 ≠ a := by
  induction m with
  | nil => simp [Memory.erase]
  | cons c rest ih =>
    obtain ⟨j, d⟩ := c
    rw [Memory.erase]
    split
    · exact ih
    · intro c hc
      rcases List.mem_cons.mp hc with rfl | hc
      · assumption
      · exact ih c hc

/-- Read after write: the written address holds the byte, every other address what it held. -/
@[simp] theorem read_write (m : List Host.Cell) (a : Nat) (b : Byte) (k : Nat) :
    Memory.read (Memory.write m a b) k = if k = a then b else Memory.read m k := by
  rw [Memory.write]
  split
  · rw [read_erase]
    simp_all
  · rw [read_insert _ _ _ _ (erase_free m a), read_erase]
    split <;> simp_all

/-! ### The canonical form -/

theorem cellsFrom_weaken {p q : Option Nat} {m : List Host.Cell} (h : cellsFrom q m = true)
    (hpq : ∀ a, p = some a → ∃ b, q = some b ∧ a ≤ b) : cellsFrom p m = true := by
  cases m with
  | nil => rfl
  | cons c rest =>
    obtain ⟨j, d⟩ := c
    cases p with
    | none => simp_all [cellsFrom]
    | some a =>
      obtain ⟨b, rfl, hab⟩ := hpq a rfl
      simp only [cellsFrom, Bool.and_eq_true, decide_eq_true_eq] at h ⊢
      exact ⟨⟨⟨by omega, h.1.1.2⟩, h.1.2⟩, h.2⟩

theorem cellsFrom_erase {p : Option Nat} {m : List Host.Cell} (h : cellsFrom p m = true) (a : Nat) :
    cellsFrom p (Memory.erase m a) = true := by
  induction m generalizing p with
  | nil => rfl
  | cons c rest ih =>
    obtain ⟨j, d⟩ := c
    have hrest : cellsFrom (some j) rest = true := by simp_all [cellsFrom]
    rw [Memory.erase]
    split
    · refine cellsFrom_weaken (ih hrest) fun b hb => ⟨j, rfl, ?_⟩
      subst hb
      simp only [cellsFrom, Bool.and_eq_true, decide_eq_true_eq] at h
      omega
    · simp_all [cellsFrom]

theorem cellsFrom_insert {p : Option Nat} {m : List Host.Cell} (h : cellsFrom p m = true) {a : Nat} {b : Byte}
    (hp : ∀ q, p = some q → q < a) (ha : a < addressCount) (hb : b ≠ blankByte) (hfree : ∀ c ∈ m, c.1 ≠ a) :
    cellsFrom p (Memory.insert m a b) = true := by
  induction m generalizing p with
  | nil =>
    cases p with
    | none => simp [Memory.insert, cellsFrom, ha, hb]
    | some q => simp [Memory.insert, cellsFrom, ha, hb, hp q rfl]
  | cons c rest ih =>
    obtain ⟨j, d⟩ := c
    have hj : j ≠ a := hfree (j, d) (by simp)
    have hrest : cellsFrom (some j) rest = true := by simp_all [cellsFrom]
    have hself : cellsFrom (some a) ((j, d) :: rest) = true ∨ ¬ a < j := by
      by_cases haj : a < j
      · left
        cases p <;> simp_all [cellsFrom]
      · exact .inr haj
    rw [Memory.insert]
    split
    · rename_i haj
      have := hself.resolve_right (not_not_intro haj)
      cases p with
      | none => simp_all [cellsFrom]
      | some q =>
        have := hp q rfl
        simp_all [cellsFrom]
    · rename_i haj
      have := ih hrest (fun q hq => by cases hq; omega) (fun c hc => hfree c (by simp [hc]))
      cases p <;> simp_all [cellsFrom]

/-- A write keeps the canonical form. -/
theorem write_wf {m : List Host.Cell} (h : Memory.wf m = true) {a : Nat} (ha : a < addressCount) (b : Byte) :
    Memory.wf (Memory.write m a b) = true := by
  rw [Memory.write]
  split
  · exact cellsFrom_erase h a
  · rename_i hb
    exact cellsFrom_insert (cellsFrom_erase h a) (by simp) ha hb (erase_free m a)

theorem address_lt (a : Word) : a.toNat < addressCount := a.isLt

/-- A list of stores keeps the canonical form. -/
theorem storeAll_wf {m : List Host.Cell} (h : Memory.wf m = true) (stores : List (Word × Byte)) :
    Memory.wf (storeAll m stores) = true := by
  induction stores generalizing m with
  | nil => exact h
  | cons c rest ih => exact ih (write_wf h (address_lt c.1) c.2)

/-- Two memories in the canonical form that read the same everywhere are equal. -/
theorem wf_ext {m m' : List Host.Cell} (h : Memory.wf m = true) (h' : Memory.wf m' = true)
    (hread : ∀ a, Memory.read m a = Memory.read m' a) : m = m' := by
  have below : ∀ (m : List Host.Cell) (p a : Nat), cellsFrom (some p) m = true → a ≤ p → Memory.read m a = blankByte := by
    intro m
    induction m with
    | nil => intros; rfl
    | cons c rest ih =>
      obtain ⟨j, d⟩ := c
      intro p a hm ha
      simp only [cellsFrom, Bool.and_eq_true, decide_eq_true_eq] at hm
      have hne : j ≠ a := by omega
      rw [Memory.read, if_neg hne]
      exact ih j a hm.2 (by omega)
  have go : ∀ (m m' : List Host.Cell) (p : Option Nat), cellsFrom p m = true → cellsFrom p m' = true →
      (∀ a, Memory.read m a = Memory.read m' a) → m = m' := by
    intro m
    induction m with
    | nil =>
      intro m' p _ h' hread
      cases m' with
      | nil => rfl
      | cons c rest =>
        obtain ⟨j, d⟩ := c
        have := hread j
        simp_all [cellsFrom, Memory.read]
    | cons c rest ih =>
      obtain ⟨j, d⟩ := c
      intro m' p h h' hread
      have hd : d ≠ blankByte ∧ cellsFrom (some j) rest = true := by simp_all [cellsFrom]
      cases m' with
      | nil =>
        have := hread j
        simp_all [Memory.read]
      | cons c' rest' =>
        obtain ⟨j', d'⟩ := c'
        have hd' : d' ≠ blankByte ∧ cellsFrom (some j') rest' = true := by simp_all [cellsFrom]
        have hj : j = j' := by
          rcases Nat.lt_trichotomy j j' with hlt | heq | hgt
          · have h1 := hread j
            rw [Memory.read, if_pos rfl, Memory.read, if_neg (by omega), below rest' j' j hd'.2 (by omega)] at h1
            exact absurd h1 hd.1
          · exact heq
          · have h1 := hread j'
            rw [Memory.read, if_neg (by omega), below rest j j' hd.2 (by omega), Memory.read, if_pos rfl] at h1
            exact absurd h1.symm hd'.1
        subst hj
        have hb : d = d' := by
          have := hread j
          simpa [Memory.read] using this
        subst hb
        congr 1
        refine ih rest' (some j) hd.2 hd'.2 fun a => ?_
        by_cases haj : a ≤ j
        · rw [below rest j a hd.2 haj, below rest' j a hd'.2 haj]
        · have := hread a
          rwa [Memory.read, if_neg (by omega), Memory.read, if_neg (by omega)] at this
  exact go m m' none h h' hread

/-! ### Runs of stores -/

/-- An address no store names keeps its byte. -/
theorem read_storeAll_of_forall_ne {m : List Host.Cell} {stores : List (Word × Byte)} {a : Nat}
    (h : ∀ c ∈ stores, c.1.toNat ≠ a) : Memory.read (storeAll m stores) a = Memory.read m a := by
  induction stores generalizing m with
  | nil => rfl
  | cons c rest ih =>
    rw [storeAll, ih fun d hd => h d (List.mem_cons_of_mem c hd), read_write, if_neg]
    exact fun heq => h c (by simp) heq.symm

theorem mem_storesAt {addr : Word} {bytes : List Byte} {c : Word × Byte} (h : c ∈ storesAt addr bytes) :
    ∃ i, ∃ hi : i < bytes.length, c = (addr + BitVec.ofNat 64 i, bytes[i]) := by
  induction bytes generalizing addr with
  | nil => simp [storesAt] at h
  | cons b rest ih =>
    rw [storesAt] at h
    rcases List.mem_cons.mp h with rfl | h
    · exact ⟨0, by simp, by simp⟩
    · obtain ⟨i, hi, rfl⟩ := ih h
      refine ⟨i + 1, by simpa using hi, ?_⟩
      have h1 : addr + 1#64 + BitVec.ofNat 64 i = addr + BitVec.ofNat 64 (i + 1) := by
        rw [BitVec.add_assoc, BitVec.add_comm 1#64, ← BitVec.ofNat_add]
      simp [h1]

theorem offset_ne {addr : Word} {i j : Nat} (hi : i < addressCount) (hj : j < addressCount) (h : i ≠ j) :
    (addr + BitVec.ofNat 64 i).toNat ≠ (addr + BitVec.ofNat 64 j).toNat := by
  intro heq
  simp only [addressCount] at hi hj
  simp only [BitVec.toNat_add, BitVec.toNat_ofNat] at heq
  omega

/-- Byte i of the stored range holds byte i of the string (R52), each address being written once. -/
theorem read_storeAll_storesAt (m : List Host.Cell) (addr : Word) (bytes : List Byte) (hlen : bytes.length ≤ addressCount)
    {i : Nat} (hi : i < bytes.length) :
    Memory.read (storeAll m (storesAt addr bytes)) (addr + BitVec.ofNat 64 i).toNat = bytes[i] := by
  induction bytes generalizing m addr i with
  | nil => simp at hi
  | cons b rest ih =>
    rw [storesAt, storeAll]
    cases i with
    | zero =>
      rw [read_storeAll_of_forall_ne]
      · simp
      · intro c hc
        obtain ⟨k, hk, rfl⟩ := mem_storesAt hc
        have h1 : addr + 1#64 + BitVec.ofNat 64 k = addr + BitVec.ofNat 64 (k + 1) := by
          rw [BitVec.add_assoc, BitVec.add_comm 1#64, ← BitVec.ofNat_add]
        rw [h1]
        simp only [List.length_cons] at hlen
        exact offset_ne (by omega) (by simp [addressCount]) (by omega)
    | succ i =>
      have h1 : addr + BitVec.ofNat 64 (i + 1) = addr + 1#64 + BitVec.ofNat 64 i := by
        rw [BitVec.add_assoc, BitVec.add_comm 1#64, ← BitVec.ofNat_add]
      rw [h1]
      exact ih (Memory.write m addr.toNat b) (addr + 1#64) (by simp only [List.length_cons] at hlen; omega) (by simpa using hi)

/-- An address outside the stored range keeps its byte. -/
theorem read_storeAll_outside (m : List Host.Cell) (addr : Word) (bytes : List Byte) {a : Nat}
    (h : outside addr bytes.length a) : Memory.read (storeAll m (storesAt addr bytes)) a = Memory.read m a := by
  refine read_storeAll_of_forall_ne fun c hc => ?_
  obtain ⟨i, hi, rfl⟩ := mem_storesAt hc
  exact h i hi

end Sys2Proof.Laws
end

