-- ==== Sys2Proof/Laws/State.lean ====
section
/-! SUPPORT. What each update of the state leaves in each field, and the TS registers after a write. -/

namespace Sys2Proof.Laws

open Sys2Proof.Machine

/-! ### The TS register file -/

/-- Reading a TS register after a write to one (R13). -/
@[simp] theorem tsReg_setTs (s : State) (d k : TsReg) (S : TState) :
    (s.setTs d S).tsReg k = if k = d then S else s.tsReg k := by
  simp only [State.tsReg, State.setTs, Fin.getElem_fin, Vector.getElem_set, Fin.ext_iff, eq_comm]

/-- A TS file with TS[0] replaced, read at k. -/
theorem tsReg_of_set_zero {s t : State} {S : TState} (h : t.ts = s.ts.set 0 S) (k : TsReg) :
    t.tsReg k = if k = 0 then S else s.tsReg k := by
  simp only [State.tsReg, h, Fin.getElem_fin, Vector.getElem_set, Fin.ext_iff, eq_comm, Fin.val_zero]

@[simp] theorem tsReg_instReset (s : State) (k : TsReg) : s.instReset.tsReg k = if k = 0 then iv else s.tsReg k :=
  tsReg_of_set_zero rfl k

@[simp] theorem tsReg_freeHasher (s : State) (n : Nat) (k : TsReg) :
    (s.freeHasher n).tsReg k = if k = 0 then freeTs n 0 else s.tsReg k :=
  tsReg_of_set_zero rfl k

@[simp] theorem tsReg_finalized (s : State) (k : TsReg) :
    s.finalized.tsReg k = if k = 0 then s.finalState else s.tsReg k :=
  tsReg_of_set_zero rfl k

@[simp] theorem tsReg_finalizeAndStore (s : State) (k : TsReg) :
    s.finalizeAndStore.tsReg k = if k = 0 then s.finalState else s.tsReg k :=
  tsReg_of_set_zero rfl k

@[simp] theorem tsReg_breakOff (s : State) (c : List (Word × Byte)) (k : TsReg) : (s.breakOff c).tsReg k = s.tsReg k := rfl

@[simp] theorem tsReg_markAbsent (s : State) (k : TsReg) : s.markAbsent.tsReg k = s.tsReg k := rfl

@[simp] theorem tsReg_hardReset_zero (s : State) : s.hardReset.tsReg 0 = iv := rfl


/-! ### A TS register written -/

@[simp] theorem buf_setTs (s : State) (k : TsReg) (S : TState) : (s.setTs k S).buf = s.buf := rfl
@[simp] theorem fill_setTs (s : State) (k : TsReg) (S : TState) : (s.setTs k S).fill = s.fill := rfl
@[simp] theorem blkcnt_setTs (s : State) (k : TsReg) (S : TState) : (s.setTs k S).blkcnt = s.blkcnt := rfl
@[simp] theorem fin_setTs (s : State) (k : TsReg) (S : TState) : (s.setTs k S).fin = s.fin := rfl
@[simp] theorem lskip_setTs (s : State) (k : TsReg) (S : TState) : (s.setTs k S).lskip = s.lskip := rfl
@[simp] theorem fault_setTs (s : State) (k : TsReg) (S : TState) : (s.setTs k S).fault = s.fault := rfl
@[simp] theorem x_setTs (s : State) (k : TsReg) (S : TState) : (s.setTs k S).x = s.x := rfl
@[simp] theorem mem_setTs (s : State) (k : TsReg) (S : TState) : (s.setTs k S).mem = s.mem := rfl
@[simp] theorem unreadable_setTs (s : State) (k : TsReg) (S : TState) : (s.setTs k S).unreadable = s.unreadable := rfl
@[simp] theorem unwritable_setTs (s : State) (k : TsReg) (S : TState) : (s.setTs k S).unwritable = s.unwritable := rfl
@[simp] theorem pending_setTs (s : State) (k : TsReg) (S : TState) : (s.setTs k S).pending = s.pending := rfl
@[simp] theorem returned_setTs (s : State) (k : TsReg) (S : TState) : (s.setTs k S).returned = s.returned := rfl
@[simp] theorem transport_setTs (s : State) (k : TsReg) (S : TState) : (s.setTs k S).transport = s.transport := rfl
@[simp] theorem byteOrder_setTs (s : State) (k : TsReg) (S : TState) : (s.setTs k S).byteOrder = s.byteOrder := rfl
@[simp] theorem busData_setTs (s : State) (k : TsReg) (S : TState) : (s.setTs k S).busData = s.busData := rfl
@[simp] theorem draws_setTs (s : State) (k : TsReg) (S : TState) : (s.setTs k S).draws = s.draws := rfl

/-! ### The hasher reset (R141) -/

@[simp] theorem fault_instReset (s : State) : (s.instReset).fault = s.fault := rfl
@[simp] theorem x_instReset (s : State) : (s.instReset).x = s.x := rfl
@[simp] theorem mem_instReset (s : State) : (s.instReset).mem = s.mem := rfl
@[simp] theorem unreadable_instReset (s : State) : (s.instReset).unreadable = s.unreadable := rfl
@[simp] theorem unwritable_instReset (s : State) : (s.instReset).unwritable = s.unwritable := rfl
@[simp] theorem pending_instReset (s : State) : (s.instReset).pending = s.pending := rfl
@[simp] theorem returned_instReset (s : State) : (s.instReset).returned = s.returned := rfl
@[simp] theorem transport_instReset (s : State) : (s.instReset).transport = s.transport := rfl
@[simp] theorem byteOrder_instReset (s : State) : (s.instReset).byteOrder = s.byteOrder := rfl
@[simp] theorem busData_instReset (s : State) : (s.instReset).busData = s.busData := rfl
@[simp] theorem draws_instReset (s : State) : (s.instReset).draws = s.draws := rfl
@[simp] theorem ts_instReset (s : State) : (s.instReset).ts = s.ts.set 0 iv := rfl
@[simp] theorem buf_instReset (s : State) : (s.instReset).buf = Vector.replicate 4 (Vector.replicate 64 0x00#8) := rfl
@[simp] theorem fill_instReset (s : State) : (s.instReset).fill = 0 := rfl
@[simp] theorem blkcnt_instReset (s : State) : (s.instReset).blkcnt = 0#64 := rfl
@[simp] theorem fin_instReset (s : State) : (s.instReset).fin = false := rfl
@[simp] theorem lskip_instReset (s : State) : (s.instReset).lskip = 0#4 := rfl

/-! ### A command broken off (R185 b) -/

@[simp] theorem ts_breakOff (s : State) (c : List (Word × Byte)) : (s.breakOff c).ts = s.ts := rfl
@[simp] theorem buf_breakOff (s : State) (c : List (Word × Byte)) : (s.breakOff c).buf = s.buf := rfl
@[simp] theorem fill_breakOff (s : State) (c : List (Word × Byte)) : (s.breakOff c).fill = s.fill := rfl
@[simp] theorem blkcnt_breakOff (s : State) (c : List (Word × Byte)) : (s.breakOff c).blkcnt = s.blkcnt := rfl
@[simp] theorem fin_breakOff (s : State) (c : List (Word × Byte)) : (s.breakOff c).fin = s.fin := rfl
@[simp] theorem lskip_breakOff (s : State) (c : List (Word × Byte)) : (s.breakOff c).lskip = s.lskip := rfl
@[simp] theorem fault_breakOff (s : State) (c : List (Word × Byte)) : (s.breakOff c).fault = s.fault := rfl
@[simp] theorem x_breakOff (s : State) (c : List (Word × Byte)) : (s.breakOff c).x = s.x := rfl
@[simp] theorem unreadable_breakOff (s : State) (c : List (Word × Byte)) : (s.breakOff c).unreadable = s.unreadable := rfl
@[simp] theorem unwritable_breakOff (s : State) (c : List (Word × Byte)) : (s.breakOff c).unwritable = s.unwritable := rfl
@[simp] theorem pending_breakOff (s : State) (c : List (Word × Byte)) : (s.breakOff c).pending = s.pending := rfl
@[simp] theorem returned_breakOff (s : State) (c : List (Word × Byte)) : (s.breakOff c).returned = s.returned := rfl
@[simp] theorem transport_breakOff (s : State) (c : List (Word × Byte)) : (s.breakOff c).transport = s.transport := rfl
@[simp] theorem byteOrder_breakOff (s : State) (c : List (Word × Byte)) : (s.breakOff c).byteOrder = s.byteOrder := rfl
@[simp] theorem busData_breakOff (s : State) (c : List (Word × Byte)) : (s.breakOff c).busData = s.busData := rfl
@[simp] theorem mem_breakOff (s : State) (c : List (Word × Byte)) : (s.breakOff c).mem = s.storeTaken s.draws 0 s.mem c := rfl
@[simp] theorem draws_breakOff (s : State) (c : List (Word × Byte)) : (s.breakOff c).draws = s.draws + 1 := rfl

/-! ### The hasher unspecified (R185 b) -/

@[simp] theorem fault_freeHasher (s : State) (n : Nat) : (s.freeHasher n).fault = s.fault := rfl
@[simp] theorem x_freeHasher (s : State) (n : Nat) : (s.freeHasher n).x = s.x := rfl
@[simp] theorem mem_freeHasher (s : State) (n : Nat) : (s.freeHasher n).mem = s.mem := rfl
@[simp] theorem unreadable_freeHasher (s : State) (n : Nat) : (s.freeHasher n).unreadable = s.unreadable := rfl
@[simp] theorem unwritable_freeHasher (s : State) (n : Nat) : (s.freeHasher n).unwritable = s.unwritable := rfl
@[simp] theorem pending_freeHasher (s : State) (n : Nat) : (s.freeHasher n).pending = s.pending := rfl
@[simp] theorem returned_freeHasher (s : State) (n : Nat) : (s.freeHasher n).returned = s.returned := rfl
@[simp] theorem transport_freeHasher (s : State) (n : Nat) : (s.freeHasher n).transport = s.transport := rfl
@[simp] theorem byteOrder_freeHasher (s : State) (n : Nat) : (s.freeHasher n).byteOrder = s.byteOrder := rfl
@[simp] theorem busData_freeHasher (s : State) (n : Nat) : (s.freeHasher n).busData = s.busData := rfl
@[simp] theorem draws_freeHasher (s : State) (n : Nat) : (s.freeHasher n).draws = s.draws := rfl
@[simp] theorem ts_freeHasher (s : State) (n : Nat) : (s.freeHasher n).ts = s.ts.set 0 (freeTs n 0) := rfl
@[simp] theorem fill_freeHasher (s : State) (n : Nat) : (s.freeHasher n).fill = Config.freeFill n := rfl
@[simp] theorem blkcnt_freeHasher (s : State) (n : Nat) : (s.freeHasher n).blkcnt = Config.freeBlkcnt n := rfl
@[simp] theorem fin_freeHasher (s : State) (n : Nat) : (s.freeHasher n).fin = Config.freeFin n := rfl
@[simp] theorem lskip_freeHasher (s : State) (n : Nat) : (s.freeHasher n).lskip = Config.freeLskip n := rfl

/-! ### Hardware reset (R200) -/

@[simp] theorem mem_hardReset (s : State) : (s.hardReset).mem = s.mem := rfl
@[simp] theorem unreadable_hardReset (s : State) : (s.hardReset).unreadable = s.unreadable := rfl
@[simp] theorem unwritable_hardReset (s : State) : (s.hardReset).unwritable = s.unwritable := rfl
@[simp] theorem pending_hardReset (s : State) : (s.hardReset).pending = s.pending := rfl
@[simp] theorem returned_hardReset (s : State) : (s.hardReset).returned = s.returned := rfl
@[simp] theorem transport_hardReset (s : State) : (s.hardReset).transport = s.transport := rfl
@[simp] theorem byteOrder_hardReset (s : State) : (s.hardReset).byteOrder = s.byteOrder := rfl
@[simp] theorem busData_hardReset (s : State) : (s.hardReset).busData = s.busData := rfl
@[simp] theorem buf_hardReset (s : State) : (s.hardReset).buf = Vector.replicate 4 (Vector.replicate 64 0x00#8) := rfl
@[simp] theorem fill_hardReset (s : State) : (s.hardReset).fill = 0 := rfl
@[simp] theorem blkcnt_hardReset (s : State) : (s.hardReset).blkcnt = 0#64 := rfl
@[simp] theorem fin_hardReset (s : State) : (s.hardReset).fin = false := rfl
@[simp] theorem lskip_hardReset (s : State) : (s.hardReset).lskip = 0#4 := rfl
@[simp] theorem fault_hardReset (s : State) : (s.hardReset).fault = .none := rfl
@[simp] theorem draws_hardReset (s : State) : (s.hardReset).draws = s.draws + 1 := rfl

/-! ### Absent lanes marked (R143) -/

@[simp] theorem ts_markAbsent (s : State) : (s.markAbsent).ts = s.ts := rfl
@[simp] theorem buf_markAbsent (s : State) : (s.markAbsent).buf = s.buf := rfl
@[simp] theorem fill_markAbsent (s : State) : (s.markAbsent).fill = s.fill := rfl
@[simp] theorem blkcnt_markAbsent (s : State) : (s.markAbsent).blkcnt = s.blkcnt := rfl
@[simp] theorem fin_markAbsent (s : State) : (s.markAbsent).fin = s.fin := rfl
@[simp] theorem fault_markAbsent (s : State) : (s.markAbsent).fault = s.fault := rfl
@[simp] theorem x_markAbsent (s : State) : (s.markAbsent).x = s.x := rfl
@[simp] theorem mem_markAbsent (s : State) : (s.markAbsent).mem = s.mem := rfl
@[simp] theorem unreadable_markAbsent (s : State) : (s.markAbsent).unreadable = s.unreadable := rfl
@[simp] theorem unwritable_markAbsent (s : State) : (s.markAbsent).unwritable = s.unwritable := rfl
@[simp] theorem pending_markAbsent (s : State) : (s.markAbsent).pending = s.pending := rfl
@[simp] theorem returned_markAbsent (s : State) : (s.markAbsent).returned = s.returned := rfl
@[simp] theorem transport_markAbsent (s : State) : (s.markAbsent).transport = s.transport := rfl
@[simp] theorem byteOrder_markAbsent (s : State) : (s.markAbsent).byteOrder = s.byteOrder := rfl
@[simp] theorem busData_markAbsent (s : State) : (s.markAbsent).busData = s.busData := rfl
@[simp] theorem draws_markAbsent (s : State) : (s.markAbsent).draws = s.draws := rfl
@[simp] theorem lskip_markAbsent (s : State) : (s.markAbsent).lskip = s.lskip ||| s.absentLanes := rfl

/-! ### The hasher finalized (R150) -/

@[simp] theorem buf_finalized (s : State) : (s.finalized).buf = s.buf := rfl
@[simp] theorem fin_finalized (s : State) : (s.finalized).fin = s.fin := rfl
@[simp] theorem lskip_finalized (s : State) : (s.finalized).lskip = s.lskip := rfl
@[simp] theorem fault_finalized (s : State) : (s.finalized).fault = s.fault := rfl
@[simp] theorem x_finalized (s : State) : (s.finalized).x = s.x := rfl
@[simp] theorem mem_finalized (s : State) : (s.finalized).mem = s.mem := rfl
@[simp] theorem unreadable_finalized (s : State) : (s.finalized).unreadable = s.unreadable := rfl
@[simp] theorem unwritable_finalized (s : State) : (s.finalized).unwritable = s.unwritable := rfl
@[simp] theorem pending_finalized (s : State) : (s.finalized).pending = s.pending := rfl
@[simp] theorem returned_finalized (s : State) : (s.finalized).returned = s.returned := rfl
@[simp] theorem transport_finalized (s : State) : (s.finalized).transport = s.transport := rfl
@[simp] theorem byteOrder_finalized (s : State) : (s.finalized).byteOrder = s.byteOrder := rfl
@[simp] theorem busData_finalized (s : State) : (s.finalized).busData = s.busData := rfl
@[simp] theorem draws_finalized (s : State) : (s.finalized).draws = s.draws := rfl
@[simp] theorem ts_finalized (s : State) : (s.finalized).ts = s.ts.set 0 s.finalState := rfl
@[simp] theorem blkcnt_finalized (s : State) : (s.finalized).blkcnt = s.finalCount := rfl
@[simp] theorem fill_finalized (s : State) : (s.finalized).fill = 0 := rfl

/-! ### The hasher finalized and its digests stored (R150, R154) -/

@[simp] theorem buf_finalizeAndStore (s : State) : (s.finalizeAndStore).buf = s.buf := rfl
@[simp] theorem fin_finalizeAndStore (s : State) : (s.finalizeAndStore).fin = s.fin := rfl
@[simp] theorem lskip_finalizeAndStore (s : State) : (s.finalizeAndStore).lskip = s.lskip := rfl
@[simp] theorem fault_finalizeAndStore (s : State) : (s.finalizeAndStore).fault = s.fault := rfl
@[simp] theorem x_finalizeAndStore (s : State) : (s.finalizeAndStore).x = s.x := rfl
@[simp] theorem unreadable_finalizeAndStore (s : State) : (s.finalizeAndStore).unreadable = s.unreadable := rfl
@[simp] theorem unwritable_finalizeAndStore (s : State) : (s.finalizeAndStore).unwritable = s.unwritable := rfl
@[simp] theorem pending_finalizeAndStore (s : State) : (s.finalizeAndStore).pending = s.pending := rfl
@[simp] theorem returned_finalizeAndStore (s : State) : (s.finalizeAndStore).returned = s.returned := rfl
@[simp] theorem transport_finalizeAndStore (s : State) : (s.finalizeAndStore).transport = s.transport := rfl
@[simp] theorem byteOrder_finalizeAndStore (s : State) : (s.finalizeAndStore).byteOrder = s.byteOrder := rfl
@[simp] theorem busData_finalizeAndStore (s : State) : (s.finalizeAndStore).busData = s.busData := rfl
@[simp] theorem draws_finalizeAndStore (s : State) : (s.finalizeAndStore).draws = s.draws := rfl
@[simp] theorem ts_finalizeAndStore (s : State) : (s.finalizeAndStore).ts = s.ts.set 0 s.finalState := rfl
@[simp] theorem blkcnt_finalizeAndStore (s : State) : (s.finalizeAndStore).blkcnt = s.finalCount := rfl
@[simp] theorem fill_finalizeAndStore (s : State) : (s.finalizeAndStore).fill = 0 := fill_finalized s
@[simp] theorem mem_finalizeAndStore (s : State) : (s.finalizeAndStore).mem = storeAll s.mem s.digestStores := by
  simp only [State.finalizeAndStore]

/-- Every byte of the buffer is zero after an instance reset (R141). -/
theorem bufRow_instReset (s : State) (l : Lane) (i : Fin 64) : (s.instReset.bufRow l)[i] = 0x00#8 := by
  simp only [State.bufRow, buf_instReset, Fin.getElem_fin, Vector.getElem_replicate]

end Sys2Proof.Laws
end

