-- ==== Sys2Proof/Laws/Ops.lean ====
section
/-! SUPPORT. The laws of the shared operations: refusal and faults, admission of ranges, stores of a command broken off, and the
lane lengths. Each says once everything the operation can do. -/

namespace Sys2Proof.Laws

open Sys2Proof.Machine

/-! ### Refusal and faults -/

theorem running_none {s : State} (h : s.fault = .none) (k : Result) : running s k = k := if_pos h

theorem running_faulted {s : State} (h : s.fault ≠ .none) (k : Result) : running s k = .next s := if_neg h

/-- What a command that first looks at FAULT can do (R186). -/
theorem running_cases {s t : State} {k : Result} (h : running s k = .next t) :
    (s.fault ≠ .none ∧ t = s) ∨ (s.fault = .none ∧ k = .next t) := by
  by_cases hf : s.fault = .none
  · exact .inr ⟨hf, by rwa [running_none hf] at h⟩
  · rw [running_faulted hf] at h
    cases h
    exact .inl ⟨hf, rfl⟩

/-- What a command with a result in TS[d] does when FAULT is clear. -/
theorem toTs_none {s : State} (h : s.fault = .none) (d : TsReg) (S : TState) : toTs d S s = .next (s.setTs d S) :=
  running_none h _

/-! ### What no command touches (R34, R38) -/

theorem sameSurroundings_refl (s : State) : SameSurroundings s s := ⟨rfl, rfl, rfl, rfl, rfl, rfl, rfl, rfl⟩

theorem sameSurroundings_trans {s t u : State} (h : SameSurroundings s t) (h' : SameSurroundings t u) :
    SameSurroundings s u := by
  obtain ⟨h1, h2, h3, h4, h5, h6, h7, h8⟩ := h
  obtain ⟨g1, g2, g3, g4, g5, g6, g7, g8⟩ := h'
  exact ⟨g1.trans h1, g2.trans h2, g3.trans h3, g4.trans h4, g5.trans h5, g6.trans h6, g7.trans h7, g8.trans h8⟩

/-- Writing TS[d] changes nothing else. -/
theorem onlyTsChanged_setTs (s : State) (d : TsReg) (S : TState) : OnlyTsChanged d s (s.setTs d S) :=
  ⟨fun k hk => by rw [tsReg_setTs, if_neg hk], ⟨rfl, rfl, rfl, rfl, rfl⟩, rfl, sameSurroundings_refl s, rfl, fun _ => rfl⟩

/-! ### The registers on the host's bus (R9, R55 g; log 12) -/

/-- Where byte i of a register stands on the bus: the weight, in bits, of the byte at the i-th lowest address. -/
theorem get_regBytes (o : ByteOrder) (v : Word) (i : Fin 8) :
    (regBytes o v)[i] = v.extractLsb' (match o with | .little => 8 * i.val | .big => 56 - 8 * i.val) 8 := by
  cases o <;> simp [regBytes, be64]

/-- The bytes of a register value on the bus stand for that value. -/
theorem regValue_regBytes (o : ByteOrder) (v : Word) : regValue o (regBytes o v) = v := by
  cases o
  · rw [regValue, word64_of_bytes v (fun i => (regBytes .little v)[i]) fun i => get_regBytes .little v i]
  · have h : ∀ i : Fin 8, (regBytes .big v)[i.rev] = v.extractLsb' (8 * i.val) 8 := fun i => by
      have hi : 56 - 8 * i.rev.val = 8 * i.val := by rw [Fin.val_rev]; omega
      rw [get_regBytes]
      simp only [hi]
    rw [regValue, word64_of_bytes v (fun i => (regBytes .big v)[i.rev]) h]

/-- Eight bytes on the bus are determined by the bytes at their places. -/
theorem eq_regBytes {o : ByteOrder} {v : Word} {bytes : Vector Byte 8}
    (h : ∀ i : Fin 8, bytes[i] = v.extractLsb' (match o with | .little => 8 * i.val | .big => 56 - 8 * i.val) 8) :
    bytes = regBytes o v := by
  ext i hi : 1
  exact (h ⟨i, hi⟩).trans (get_regBytes o v ⟨i, hi⟩).symm

/-- A bus read changes what the host was answered with, and counts a draw, but nothing of the engine. -/
theorem busRead_frame (s : State) (a : Word) : s.busRead a = { s with busData := (s.busRead a).busData, draws := (s.busRead a).draws } := by
  rw [State.busRead]
  split <;> rfl

/-! ### Admission (R54) -/

theorem holds_iff (w : Window) (a : Nat) : w.holds a = true ↔ w.base ≤ a ∧ a < w.base + w.size := by
  simp [Window.holds]

theorem overlaps_iff (w : Window) (lo hi : Nat) :
    w.overlaps lo hi = true ↔ ∃ a, lo ≤ a ∧ a < hi ∧ w.holds a = true := by
  simp only [Window.overlaps, decide_eq_true_eq, holds_iff]
  constructor
  · intro h
    exact ⟨max lo w.base, by omega, by omega, by omega, by omega⟩
  · rintro ⟨a, h1, h2, h3, h4⟩
    omega

/-- A range meets a window iff one of its bytes, taken modulo 2^64, lies in it (R53, R54). -/
theorem meets_iff (w : Window) (addr : Word) {n : Nat} (hn : n ≤ addressCount) :
    w.meets addr n = true ↔ ∃ i < n, w.holds (addr + BitVec.ofNat 64 i).toNat = true := by
  have ha : addr.toNat < addressCount := addr.isLt
  simp only [Window.meets, Bool.or_eq_true, overlaps_iff]
  simp only [addressCount] at *
  have hval : ∀ i < n, (addr + BitVec.ofNat 64 i).toNat = (addr.toNat + i) % 2 ^ 64 := by
    intro i hi
    rw [BitVec.toNat_add, BitVec.toNat_ofNat]
    omega
  constructor
  · rintro (⟨a, h1, h2, h3⟩ | ⟨a, _, h2, h3⟩)
    · refine ⟨a - addr.toNat, by omega, ?_⟩
      rw [hval _ (by omega), show (addr.toNat + (a - addr.toNat)) % 2 ^ 64 = a by omega]
      exact h3
    · refine ⟨a + 2 ^ 64 - addr.toNat, by omega, ?_⟩
      rw [hval _ (by omega), show (addr.toNat + (a + 2 ^ 64 - addr.toNat)) % 2 ^ 64 = a by omega]
      exact h3
  · rintro ⟨i, hi, h⟩
    rw [hval i hi] at h
    by_cases hw : addr.toNat + i < 2 ^ 64
    · exact .inl ⟨addr.toNat + i, by omega, by omega, by rwa [Nat.mod_eq_of_lt hw] at h⟩
    · refine .inr ⟨addr.toNat + i - 2 ^ 64, by omega, by omega, ?_⟩
      rwa [show (addr.toNat + i) % 2 ^ 64 = addr.toNat + i - 2 ^ 64 by omega] at h

/-- `MemRead` is admitted iff every byte it needs is readable (R51). -/
theorem canRead_iff (s : State) (addr : Word) {n : Nat} (hn : n ≤ addressCount) :
    s.canRead addr n = true ↔ ∀ i < n, s.readable (addr + BitVec.ofNat 64 i) = true := by
  simp only [State.canRead, State.readable, Bool.not_eq_true', List.any_eq_false]
  constructor
  · intro h i hi w hw hh
    exact h w hw ((meets_iff w addr hn).mpr ⟨i, hi, hh⟩)
  · intro h w hw hm
    obtain ⟨i, hi, hh⟩ := (meets_iff w addr hn).mp hm
    exact h i hi w hw hh

/-- `MemWrite` is admitted iff every byte it writes is writable (R52). -/
theorem canWrite_iff (s : State) (addr : Word) {n : Nat} (hn : n ≤ addressCount) :
    s.canWrite addr n = true ↔ ∀ i < n, s.writable (addr + BitVec.ofNat 64 i) = true := by
  simp only [State.canWrite, State.writable, Bool.not_eq_true', List.any_eq_false]
  constructor
  · intro h i hi w hw hh
    exact h w hw ((meets_iff w addr hn).mpr ⟨i, hi, hh⟩)
  · intro h w hw hm
    obtain ⟨i, hi, hh⟩ := (meets_iff w addr hn).mp hm
    exact h i hi w hw hh

/-! ### A command broken off (R185 b) -/

/-- After a command is broken off, a byte is as before or as one of the command's admitted stores would have left it. -/
theorem read_storeTaken (s : State) (n i : Nat) (m : List Host.Cell) (stores : List (Word × Byte)) (a : Nat) :
    Memory.read (s.storeTaken n i m stores) a = Memory.read m a
      ∨ ∃ c ∈ stores, c.1.toNat = a ∧ s.writable c.1 = true ∧ Memory.read (s.storeTaken n i m stores) a = c.2 := by
  induction stores generalizing i m with
  | nil => exact .inl rfl
  | cons c rest ih =>
    obtain ⟨k, b⟩ := c
    rw [State.storeTaken]
    by_cases hw : (s.writable k && Config.freeTaken n i) = true
    · rw [if_pos hw]
      rcases ih (i + 1) (Memory.write m k.toNat b) with h | ⟨c, hc, h1, h2, h3⟩
      · rw [read_write] at h
        split at h
        · rename_i ha
          exact .inr ⟨(k, b), by simp, ha.symm, (Bool.and_eq_true_iff.mp hw).1, h⟩
        · exact .inl h
      · exact .inr ⟨c, List.mem_cons_of_mem _ hc, h1, h2, h3⟩
    · rw [if_neg hw]
      rcases ih (i + 1) m with h | ⟨c, hc, h1, h2, h3⟩
      · exact .inl h
      · exact .inr ⟨c, List.mem_cons_of_mem _ hc, h1, h2, h3⟩

/-- A command broken off keeps the canonical form of memory. -/
theorem storeTaken_wf (s : State) (n i : Nat) {m : List Host.Cell} (h : Memory.wf m = true) (stores : List (Word × Byte)) :
    Memory.wf (s.storeTaken n i m stores) = true := by
  induction stores generalizing i m with
  | nil => exact h
  | cons c rest ih =>
    rw [State.storeTaken]
    refine ih (i + 1) ?_
    split
    · exact write_wf h (address_lt c.1) c.2
    · exact h

/-! ### Lane lengths (R143, R183) -/

theorem active_iff (s : State) (l : Lane) : s.active l = true ↔ s.len l ≠ 0#64 := by
  simp [State.active]

theorem mem_activeLengths (s : State) (n : Word) : n ∈ s.activeLengths ↔ ∃ l, s.active l = true ∧ s.len l = n := by
  simp only [State.activeLengths, List.mem_filter, decide_eq_true_eq, active_iff]
  constructor
  · rintro ⟨h, hn⟩
    simp only [List.mem_cons, List.not_mem_nil, or_false] at h
    rcases h with rfl | rfl | rfl | rfl
    · exact ⟨0, hn, rfl⟩
    · exact ⟨1, hn, rfl⟩
    · exact ⟨2, hn, rfl⟩
    · exact ⟨3, hn, rfl⟩
  · rintro ⟨l, hl, rfl⟩
    refine ⟨?_, hl⟩
    fin_cases l <;> simp

/-- No lane is active (R144). -/
theorem lengths_allZero_iff (s : State) : s.lengths = .allZero ↔ ∀ l, s.len l = 0#64 := by
  have h : s.lengths = .allZero ↔ s.activeLengths = [] := by
    rw [State.lengths]
    split
    · simp_all
    · split <;> simp_all
  rw [h, List.eq_nil_iff_forall_not_mem]
  constructor
  · intro h l
    by_contra hl
    exact h _ ((mem_activeLengths s _).mpr ⟨l, (active_iff s l).mpr hl, rfl⟩)
  · intro h n hn
    obtain ⟨l, hl, _⟩ := (mem_activeLengths s n).mp hn
    exact (active_iff s l).mp hl (h l)

/-- The active lanes share one length, and there is an active lane (R143). -/
theorem lengths_common_iff (s : State) (n : Word) :
    s.lengths = .common n ↔ (∃ l, s.active l = true) ∧ ∀ l, s.active l = true → s.len l = n := by
  have mem := mem_activeLengths s
  rw [State.lengths]
  split
  · rename_i h
    constructor
    · intro h'
      cases h'
    · rintro ⟨⟨l, hl⟩, _⟩
      have := (mem (s.len l)).mpr ⟨l, hl, rfl⟩
      simp [h] at this
  · rename_i a rest h
    have ha : ∃ l, s.active l = true ∧ s.len l = a := (mem a).mp (by simp [h])
    split
    · rename_i hall
      simp only [List.all_eq_true, decide_eq_true_eq] at hall
      have hcom : ∀ l, s.active l = true → s.len l = a := by
        intro l hl
        have := (mem (s.len l)).mpr ⟨l, hl, rfl⟩
        rw [h, List.mem_cons] at this
        exact this.elim id (hall _)
      constructor
      · intro h'
        cases h'
        exact ⟨ha.imp fun _ h => h.1, hcom⟩
      · rintro ⟨_, h'⟩
        obtain ⟨l, hl, rfl⟩ := ha
        rw [h' l hl]
    · rename_i hall
      constructor
      · intro h'
        cases h'
      · rintro ⟨_, h'⟩
        refine absurd ?_ hall
        simp only [List.all_eq_true, decide_eq_true_eq]
        intro m hm
        obtain ⟨l, hl, rfl⟩ := (mem m).mp (by simp [h, hm])
        obtain ⟨l', hl', rfl⟩ := ha
        rw [h' l hl, h' l' hl']

/-- Two active lanes have different lengths: the condition of E_LEN (R183). -/
theorem lengths_unequal_iff (s : State) :
    s.lengths = .unequal ↔ ∃ l l', s.active l = true ∧ s.active l' = true ∧ s.len l ≠ s.len l' := by
  constructor
  · intro h
    by_contra hno
    have hall : ∀ l l', s.active l = true → s.active l' = true → s.len l = s.len l' := by
      intro l l' hl hl'
      by_contra hne
      exact hno ⟨l, l', hl, hl', hne⟩
    by_cases hex : ∃ l, s.active l = true
    · obtain ⟨l, hl⟩ := hex
      have := (lengths_common_iff s (s.len l)).mpr ⟨⟨l, hl⟩, fun l' hl' => hall l' l hl' hl⟩
      rw [h] at this
      cases this
    · have : s.lengths = .allZero := (lengths_allZero_iff s).mpr fun l => by
        by_contra hl
        exact hex ⟨l, (active_iff s l).mpr hl⟩
      rw [h] at this
      cases this
  · rintro ⟨l, l', hl, hl', hne⟩
    cases h : s.lengths with
    | unequal => rfl
    | allZero => exact absurd ((lengths_allZero_iff s).mp h l) ((active_iff s l).mp hl)
    | common n =>
      have hc := ((lengths_common_iff s n).mp h).2
      exact absurd ((hc l hl).trans (hc l' hl').symm) hne

/-- Bit l of the mask of absent lanes (R31). -/
theorem getLsbD_absentLanes (s : State) (l : Lane) : s.absentLanes.getLsbD l.val = !s.active l := by
  have bits : ∀ (a b c d : Bool) (l : Fin 4),
      (BitVec.ofBool d ++ BitVec.ofBool c ++ BitVec.ofBool b ++ BitVec.ofBool a : BitVec 4).getLsbD l.val
        = [a, b, c, d].getD l.val false := by decide
  rw [State.absentLanes, bits]
  fin_cases l <;> rfl

end Sys2Proof.Laws
end

