-- ==== Sys2Proof/Laws/Streaming.lean ====
section
/-! SUPPORT. The laws of absorption and finalization: what they leave unchanged, and the bytes of buffer rows, padding blocks
and digests. -/

namespace Sys2Proof.Laws

open Sys2Proof.Machine

/-! ### What absorption leaves unchanged -/

theorem onlyStreamChanged_refl (s : State) : OnlyStreamChanged s s :=
  ⟨fun _ _ => rfl, rfl, rfl, rfl, sameSurroundings_refl s, rfl, rfl⟩

theorem onlyStreamChanged_trans {s t u : State} (h : OnlyStreamChanged s t) (h' : OnlyStreamChanged t u) :
    OnlyStreamChanged s u := by
  obtain ⟨h1, h2, h3, h4, h5, h6, h7⟩ := h
  obtain ⟨g1, g2, g3, g4, g5, g6, g7⟩ := h'
  exact ⟨fun k hk => (g1 k hk).trans (h1 k hk), g2.trans h2, g3.trans h3, g4.trans h4,
    sameSurroundings_trans h5 g5, g6.trans h6, g7.trans h7⟩

theorem absorbTurn_frame (s : State) (pos n : Nat) : OnlyStreamChanged s (s.absorbTurn pos n) := by
  rw [State.absorbTurn]
  split
  · refine ⟨fun k hk => ?_, rfl, rfl, rfl, sameSurroundings_refl s, rfl, rfl⟩
    rw [tsReg_of_set_zero (s := s) rfl, if_neg hk]
  · exact ⟨fun _ _ => rfl, rfl, rfl, rfl, sameSurroundings_refl s, rfl, rfl⟩

theorem absorbFrom_frame (len turns pos : Nat) (s : State) : OnlyStreamChanged s (absorbFrom len turns pos s) := by
  induction turns generalizing pos s with
  | zero => exact onlyStreamChanged_refl s
  | succ turns ih =>
    rw [absorbFrom]
    split
    · exact onlyStreamChanged_trans (absorbTurn_frame s pos _) (ih _ _)
    · exact onlyStreamChanged_refl s

/-- Absorbing data changes nothing but TS[0], BUF, FILL and BLKCNT (R145). -/
theorem absorb_frame (s : State) (len : Nat) : OnlyStreamChanged s (s.absorb len) := absorbFrom_frame _ _ _ s

/-! ### Buffer rows (R145, R146) -/

@[simp] theorem get_fillRow (row : Block) (start n : Nat) (src : Nat → Byte) (i : Fin 64) :
    (fillRow row start n src)[i] = if start ≤ i.val ∧ i.val < start + n then src (i.val - start) else row[i] := by
  simp [fillRow]

theorem get_absorbRows (s : State) (pos n : Nat) (l : Lane) :
    (s.absorbRows pos n)[l] =
      if s.active l then fillRow (s.bufRow l) s.fill.val n (readAt s.mem (s.ptr l + BitVec.ofNat 64 pos)) else s.bufRow l := by
  simp [State.absorbRows]

/-- One turn leaves the rows of `absorbRows` in BUF, whether or not it compresses. -/
theorem bufRow_absorbTurn (s : State) (pos n : Nat) (l : Lane) :
    (s.absorbTurn pos n).bufRow l =
      if s.active l then fillRow (s.bufRow l) s.fill.val n (readAt s.mem (s.ptr l + BitVec.ofNat 64 pos)) else s.bufRow l := by
  rw [← get_absorbRows, State.absorbTurn]
  split <;> rfl

/-! ### Padding and digests (R148, R150) -/

theorem get_padFirst (row : Block) (r : Nat) (count : Word) (k : Fin 64) :
    (padFirst row r count)[k] =
      if k.val < r then row[k]
      else if k.val = r then Config.padMark
      else if r < Config.padThreshold ∧ Config.padThreshold ≤ k.val then be64 count (k.val - Config.padThreshold)
      else 0x00#8 := by
  simp [padFirst]

theorem get_padSecond (count : Word) (k : Fin 64) :
    (padSecond count)[k] =
      if k.val < Config.padThreshold then 0x00#8 else be64 count (k.val - Config.padThreshold) := by
  simp [padSecond]

@[simp] theorem length_digestBytes (S : TState) : (digestBytes S).length = 128 := by
  simp [digestBytes]

@[simp] theorem length_unpackBytes (S : TState) : (unpackBytes S).length = 256 := by
  simp [unpackBytes]

/-- Byte j of lane l's digest among the 128 digest bytes (R150, R154). -/
theorem get_digestBytes (S : TState) (l : Lane) (j : Fin 32) :
    (digestBytes S)[32 * l.val + j.val]'(by rw [length_digestBytes]; omega) = unpackByte S l (32 + j.val) := by
  have h1 : (32 * l.val + j.val) / 32 = l.val := by omega
  have h2 : (32 * l.val + j.val) % 32 = j.val := by omega
  have h3 : Fin.ofNat 4 l.val = l := Fin.ext (Nat.mod_eq_of_lt l.isLt)
  simp only [digestBytes, List.getElem_map, List.getElem_range, h1, h2, h3]

/-- Byte k of lane l among the 256 bytes UNPACK stores (R95). -/
theorem get_unpackBytes (S : TState) (l : Lane) (k : Fin 64) :
    (unpackBytes S)[64 * l.val + k.val]'(by rw [length_unpackBytes]; omega) = unpackByte S l k.val := by
  have h1 : (64 * l.val + k.val) / 64 = l.val := by omega
  have h2 : (64 * l.val + k.val) % 64 = k.val := by omega
  have h3 : Fin.ofNat 4 l.val = l := Fin.ext (Nat.mod_eq_of_lt l.isLt)
  simp only [unpackBytes, List.getElem_map, List.getElem_range, h1, h2, h3]

theorem offset_add (addr : Word) (a b : Nat) :
    addr + BitVec.ofNat 64 a + BitVec.ofNat 64 b = addr + BitVec.ofNat 64 (a + b) := by
  rw [BitVec.add_assoc, ← BitVec.ofNat_add]

/-- After the digest stores, the four slots hold the digests (R154). -/
theorem digestsStored_storeAll (s t : State) (S : TState) (h : t.mem = storeAll s.mem (storesAt s.dst (digestBytes S))) :
    DigestsStored s.dst S t := by
  intro l j
  have hlt : 32 * l.val + j.val < (digestBytes S).length := by rw [length_digestBytes]; omega
  rw [readAt, offset_add, h, read_storeAll_storesAt s.mem s.dst (digestBytes S) (by simp [addressCount]) hlt, get_digestBytes]

/-! ### Admission of a whole command (R54, R57) -/

theorem canPack_iff (s : State) :
    s.canPack = true ↔ ∀ (l : Lane) (k : Fin 64), s.readable (s.ptr l + BitVec.ofNat 64 k.val) = true := by
  have h64 : 64 ≤ addressCount := by unfold addressCount; omega
  simp only [State.canPack, List.all_eq_true, List.mem_finRange, true_implies, canRead_iff s _ h64]
  exact ⟨fun h l k => h l k.val k.isLt, fun h l i hi => h l ⟨i, hi⟩⟩

theorem canAbsorb_iff (s : State) :
    s.canAbsorb = true ↔
      ∀ l, s.active l = true → ∀ k < (s.len l).toNat, s.readable (s.ptr l + BitVec.ofNat 64 k) = true := by
  have hlen : ∀ l, (s.len l).toNat ≤ addressCount := fun l => Nat.le_of_lt (s.len l).isLt
  simp only [State.canAbsorb, List.all_eq_true, List.mem_finRange, true_implies, Bool.or_eq_true, Bool.not_eq_true',
    canRead_iff s _ (hlen _)]
  refine forall_congr' fun l => ?_
  cases s.active l <;> simp

/-- What hashing the data of a DIGEST leaves unchanged (R153). -/
theorem hashed_frame (s : State) :
    SameTsBut 0 s s.hashed ∧ s.hashed.fin = false ∧ s.hashed.fault = s.fault ∧ SameSurroundings s s.hashed ∧
      s.hashed.draws = s.draws ∧ s.hashed.mem = s.mem := by
  have hreset : SameTsBut 0 s s.instReset := fun k hk => by rw [tsReg_instReset, if_neg hk]
  rw [State.hashed]
  split
  · rename_i n _
    obtain ⟨hts, hfin, -, hfault, hsame, hdraws, hmem⟩ := absorb_frame s.instReset.markAbsent n.toNat
    exact ⟨fun k hk => (hts k hk).trans (hreset k hk), hfin, hfault, hsame, hdraws, hmem⟩
  · exact ⟨hreset, rfl, rfl, sameSurroundings_refl s, rfl, rfl⟩
  · exact ⟨hreset, rfl, rfl, sameSurroundings_refl s, rfl, rfl⟩

end Sys2Proof.Laws
end

