-- ==== Sys2Proof/Laws/Absorb.lean ====
section
/-! SUPPORT. What R145's loop leaves behind, in closed form. -/

namespace Sys2Proof.Laws

open Sys2Proof.Machine

/-- Byte i of lane l's buffer row once the stream has advanced to position q: the last stream byte that went there. -/
def rowByte (s : State) (l : Lane) (q : Nat) (i : Fin 64) : Byte :=
  if s.active l ∧ i.val < q then s.streamByte l (64 * ((q + 63 - i.val) / 64 - 1) + i.val) else (s.bufRow l)[i]

/-- `u` is `s` with `pos` bytes per active lane absorbed (R145, R146). -/
def Absorbed (s u : State) (pos : Nat) : Prop :=
  u.fill.val = (s.fill.val + pos) % 64 ∧
  u.blkcnt = s.blkcnt + BitVec.ofNat 64 ((s.fill.val + pos) / 64) ∧
  u.tsReg 0 = s.chainAfter ((s.fill.val + pos) / 64) ∧
  (∀ (l : Lane) (i : Fin 64), (u.bufRow l)[i] = rowByte s l (s.fill.val + pos) i) ∧
  OnlyStreamChanged s u

theorem getElem!_row (row : Block) (i : Fin 64) : row[i.val]! = row[i] := by
  simp

theorem streamByte_low (s : State) (l : Lane) (i : Fin 64) (h : i.val < s.fill.val) : s.streamByte l i.val = (s.bufRow l)[i] := by
  rw [State.streamByte, if_pos h, getElem!_row]

theorem streamByte_high (s : State) (l : Lane) (pos j : Nat) :
    s.streamByte l (s.fill.val + (pos + j)) = readAt s.mem (s.ptr l + BitVec.ofNat 64 pos) j := by
  rw [State.streamByte, if_neg (by omega), readAt, readAt, offset_add, Nat.add_sub_cancel_left]

theorem rowByte_fill (s : State) (l : Lane) (i : Fin 64) : rowByte s l s.fill.val i = (s.bufRow l)[i] := by
  rw [rowByte]
  split
  · rename_i h
    have hf := s.fill.isLt
    have : (s.fill.val + 63 - i.val) / 64 - 1 = 0 := by omega
    rw [this, Nat.mul_zero, Nat.zero_add, streamByte_low s l i h.2]
  · rfl

theorem absorbed_zero (s : State) : Absorbed s s 0 := by
  have hf := s.fill.isLt
  have h0 : (s.fill.val + 0) / 64 = 0 := by omega
  refine ⟨by omega, by rw [h0]; simp, by rw [h0]; rfl, fun l i => (rowByte_fill s l i).symm, onlyStreamChanged_refl s⟩

theorem absorbed_active {s u : State} {pos : Nat} (h : Absorbed s u pos) (l : Lane) : u.active l = s.active l := by
  rw [State.active, State.len, h.2.2.2.2.2.2.2.2.1.1]
  rfl

/-- One turn's new rows, of a state that has absorbed up to `pos`. -/
theorem absorbed_rows {s u : State} {pos n : Nat} (h : Absorbed s u pos) (hn : u.fill.val + n ≤ 64) (l : Lane) (i : Fin 64) :
    ((u.absorbRows pos n)[l])[i] = rowByte s l (s.fill.val + (pos + n)) i := by
  have ha := absorbed_active h l
  obtain ⟨hfill, -, -, hrow, -, -, -, -, ⟨hx, -⟩, -, hmem⟩ := h
  have hf := s.fill.isLt
  have hi := i.isLt
  rw [get_absorbRows, ha]
  by_cases hact : s.active l = true
  · rw [if_pos hact, get_fillRow]
    split
    · rename_i hr
      rw [rowByte, if_pos ⟨hact, by omega⟩, hmem, State.ptr, hx]
      have hp : 64 * ((s.fill.val + (pos + n) + 63 - i.val) / 64 - 1) + i.val
          = s.fill.val + (pos + (i.val - u.fill.val)) := by omega
      rw [hp, streamByte_high]
      rfl
    · rename_i hr
      rw [hrow, rowByte, rowByte]
      by_cases hlt : i.val < s.fill.val + pos
      · have hq : (s.fill.val + (pos + n) + 63 - i.val) / 64 = (s.fill.val + pos + 63 - i.val) / 64 := by omega
        rw [if_pos ⟨hact, hlt⟩, if_pos ⟨hact, by omega⟩, hq]
      · rw [if_neg (fun c => hlt c.2), if_neg (fun c => by have := c.2; omega)]
  · rw [if_neg hact, hrow, rowByte, rowByte, if_neg (fun c => hact c.1), if_neg (fun c => hact c.1)]

theorem rowByte_full (s : State) (l : Lane) (m : Nat) (i : Fin 64) :
    rowByte s l (64 * (m + 1)) i = ((s.superBlock m)[l])[i] := by
  have hi := i.isLt
  have hm : (64 * (m + 1) + 63 - i.val) / 64 - 1 = m := by omega
  rw [rowByte, hm]
  by_cases hact : s.active l = true
  · rw [if_pos ⟨hact, by omega⟩]
    simp [State.superBlock, hact]
  · rw [if_neg (fun c => hact c.1)]
    simp [State.superBlock, hact]

/-- One turn of R145's loop. -/
theorem absorbed_turn {s u : State} {pos n : Nat} (h : Absorbed s u pos) (hn : u.fill.val + n ≤ 64) :
    Absorbed s (u.absorbTurn pos n) (pos + n) := by
  have rows := absorbed_rows h hn
  have frame := onlyStreamChanged_trans h.2.2.2.2 (absorbTurn_frame u pos n)
  obtain ⟨hfill, hcnt, hts, -, -⟩ := h
  have hf := s.fill.isLt
  by_cases hfull : u.fill.val + n = 64
  · have hm : (s.fill.val + (pos + n)) / 64 = (s.fill.val + pos) / 64 + 1 := by omega
    have hq : s.fill.val + (pos + n) = 64 * ((s.fill.val + pos) / 64 + 1) := by omega
    rw [State.absorbTurn, if_pos hfull] at frame ⊢
    refine ⟨?_, ?_, ?_, fun l i => rows l i, frame⟩
    · simp only [Fin.val_zero]
      omega
    · rw [hm, hcnt, BitVec.ofNat_add, BitVec.add_assoc]
    · rw [tsReg_of_set_zero (s := u) rfl, if_pos rfl, hm, State.chainAfter, ← hts]
      have hblock : u.absorbRows pos n = s.superBlock ((s.fill.val + pos) / 64) := by
        ext l hl i hi : 2
        have := rows ⟨l, hl⟩ ⟨i, hi⟩
        rw [hq, rowByte_full] at this
        exact this
      rw [hblock]
      rfl
  · have hm : (s.fill.val + (pos + n)) / 64 = (s.fill.val + pos) / 64 := by omega
    rw [State.absorbTurn, if_neg hfull] at frame ⊢
    refine ⟨?_, ?_, ?_, fun l i => rows l i, frame⟩
    · simp only [Fin.val_ofNat]
      omega
    · rw [hm]
      exact hcnt
    · rw [hm]
      exact hts

theorem absorbed_from {s u : State} {pos : Nat} (len turns : Nat) (h : Absorbed s u pos) (hpos : pos ≤ len)
    (ht : (u.fill.val + (len - pos)) / 64 < turns) : Absorbed s (absorbFrom len turns pos u) len := by
  induction turns generalizing pos u with
  | zero => omega
  | succ turns ih =>
    rw [absorbFrom]
    have hf := u.fill.isLt
    split
    · rename_i hlt
      have hturn := absorbed_turn (n := min (64 - u.fill.val) (len - pos)) h (by omega)
      by_cases hlast : pos + min (64 - u.fill.val) (len - pos) = len
      · rw [hlast] at hturn ⊢
        cases turns with
        | zero => exact hturn
        | succ k => rw [absorbFrom, if_neg (Nat.lt_irrefl len)]; exact hturn
      · have hfill : (u.absorbTurn pos (min (64 - u.fill.val) (len - pos))).fill.val = 0 := by
          have h1 := hturn.1
          have h2 := h.1
          omega
        refine ih hturn (by omega) ?_
        rw [hfill]
        omega
    · have : pos = len := by omega
      rw [← this]
      exact h

/-- What `Absorb` leaves behind (R145, R146). -/
theorem absorbed_absorb (s : State) (len : Nat) : Absorbed s (s.absorb len) len :=
  absorbed_from len _ (absorbed_zero s) (Nat.zero_le _) (by omega)

/-- What `Absorb` leaves behind is determined. -/
theorem absorbed_unique {s u u' : State} {pos : Nat} (h : Absorbed s u pos) (h' : Absorbed s u' pos) : u = u' := by
  obtain ⟨hfill, hcnt, hts, hrow, htsf, hfin, hlskip, hfault, ⟨hx, hur, huw, htr, hbo, hpend, hret, hbus⟩, hdraws, hmem⟩ := h
  obtain ⟨hfill', hcnt', hts', hrow', htsf', hfin', hlskip', hfault',
    ⟨hx', hur', huw', htr', hbo', hpend', hret', hbus'⟩, hdraws', hmem'⟩ := h'
  have hT : u.ts = u'.ts := by
    ext k hk : 1
    by_cases h0 : k = 0
    · subst h0
      exact hts.trans hts'.symm
    · have hne : (⟨k, hk⟩ : TsReg) ≠ 0 := fun h => h0 (Fin.ext_iff.1 h)
      exact (htsf ⟨k, hk⟩ hne).trans (htsf' ⟨k, hk⟩ hne).symm
  have hB : u.buf = u'.buf := by
    ext l hl i hi : 2
    exact (hrow ⟨l, hl⟩ ⟨i, hi⟩).trans (hrow' ⟨l, hl⟩ ⟨i, hi⟩).symm
  have hF : u.fill = u'.fill := Fin.ext (hfill.trans hfill'.symm)
  cases u
  cases u'
  simp_all

end Sys2Proof.Laws
end

