-- ==== Sys2Proof/Laws/PerInstr.lean ====
section
/-! SUPPORT. Facts stated once per command: the encoding of every command stays within the fields of R71. -/

namespace Sys2Proof.Laws

/-- The bits R70 and R74 reserve are zero in a value put together from fields. -/
theorem reserved_assemble (op : Nat) (hop : op < 256) (d s t : TsReg) (rnd : BitVec 4) :
    (assemble op d s t rnd).extractLsb' 32 32 = 0#32 ∧ (assemble op d s t rnd).extractLsb' 14 2 = 0#2 ∧
      (assemble op d s t rnd).extractLsb' 20 12 = 0#12 := by
  have hd := d.isLt
  have hs := s.isLt
  have ht := t.isLt
  have hr := rnd.isLt
  refine ⟨?_, ?_, ?_⟩ <;> apply BitVec.eq_of_toNat_eq <;>
    simp [assemble, BitVec.extractLsb'_toNat, Nat.shiftRight_eq_div_pow] <;> omega

/-- The fields read back from a value put together from them (R71). -/
theorem fieldsOf_assemble (op : Nat) (hop : op < 256) (d s t : TsReg) (rnd : BitVec 4) :
    fieldsOf (assemble op d s t rnd) = ⟨BitVec.ofNat 8 op, d, s, t, rnd⟩ := by
  have hd := d.isLt
  have hs := s.isLt
  have ht := t.isLt
  have hr := rnd.isLt
  rw [fieldsOf, assemble, Fields.mk.injEq]
  refine ⟨BitVec.eq_of_toNat_eq ?_, Fin.ext ?_, Fin.ext ?_, Fin.ext ?_, BitVec.eq_of_toNat_eq ?_⟩ <;>
    simp [Nat.shiftRight_eq_div_pow] <;> omega

/-- The bits reserved by R70 and R74 are zero in the encoding of `i`. -/
def EncodeFits.Statement (i : Instr) : Prop :=
  (encode i).extractLsb' 32 32 = 0#32 ∧ (encode i).extractLsb' 14 2 = 0#2 ∧ (encode i).extractLsb' 20 12 = 0#12

theorem EncodeFits.reset : EncodeFits.Statement .reset :=
  reserved_assemble 0x01 (by decide) _ _ _ _

theorem EncodeFits.update : EncodeFits.Statement .update :=
  reserved_assemble 0x02 (by decide) _ _ _ _

theorem EncodeFits.final : EncodeFits.Statement .final :=
  reserved_assemble 0x03 (by decide) _ _ _ _

theorem EncodeFits.finalr : EncodeFits.Statement .finalr :=
  reserved_assemble 0x04 (by decide) _ _ _ _

theorem EncodeFits.digest : EncodeFits.Statement .digest :=
  reserved_assemble 0x05 (by decide) _ _ _ _

theorem EncodeFits.pack (d : TsReg) : EncodeFits.Statement (.pack d) :=
  reserved_assemble 0x10 (by decide) _ _ _ _

theorem EncodeFits.unpack (s : TsReg) : EncodeFits.Statement (.unpack s) :=
  reserved_assemble 0x11 (by decide) _ _ _ _

theorem EncodeFits.arcp (d s : TsReg) (rnd : BitVec 4) : EncodeFits.Statement (.arcp d s rnd) :=
  reserved_assemble 0x20 (by decide) _ _ _ _

theorem EncodeFits.arcq (d s : TsReg) (rnd : BitVec 4) : EncodeFits.Statement (.arcq d s rnd) :=
  reserved_assemble 0x21 (by decide) _ _ _ _

theorem EncodeFits.subb (d s : TsReg) : EncodeFits.Statement (.subb d s) :=
  reserved_assemble 0x22 (by decide) _ _ _ _

theorem EncodeFits.shbp (d s : TsReg) : EncodeFits.Statement (.shbp d s) :=
  reserved_assemble 0x23 (by decide) _ _ _ _

theorem EncodeFits.shbq (d s : TsReg) : EncodeFits.Statement (.shbq d s) :=
  reserved_assemble 0x24 (by decide) _ _ _ _

theorem EncodeFits.mixb (d s : TsReg) : EncodeFits.Statement (.mixb d s) :=
  reserved_assemble 0x25 (by decide) _ _ _ _

theorem EncodeFits.xors (d s t : TsReg) : EncodeFits.Statement (.xors d s t) :=
  reserved_assemble 0x26 (by decide) _ _ _ _

theorem EncodeFits.permp (d s : TsReg) : EncodeFits.Statement (.permp d s) :=
  reserved_assemble 0x30 (by decide) _ _ _ _

theorem EncodeFits.permq (d s : TsReg) : EncodeFits.Statement (.permq d s) :=
  reserved_assemble 0x31 (by decide) _ _ _ _

theorem EncodeFits.cmpr (d s t : TsReg) : EncodeFits.Statement (.cmpr d s t) :=
  reserved_assemble 0x38 (by decide) _ _ _ _

theorem EncodeFits.outx (d s : TsReg) : EncodeFits.Statement (.outx d s) :=
  reserved_assemble 0x39 (by decide) _ _ _ _

end Sys2Proof.Laws
end

