-- ==== Sys2Proof/Laws/Reference.lean ====
section
/-! SUPPORT. One lane of every function on transposed states is the single-lane function of R172 on that lane (R16). -/

namespace Sys2Proof.Laws

open Sys2Proof.Machine

/-- Lane l of a state as a 64-byte block (R92). -/
def laneOf (S : TState) (l : Lane) : Block := (unpack S)[l]

theorem elem_laneOf (S : TState) (l : Lane) (r c : Fin 8) : elem (laneOf S l) r c = S.at l r c := by
  have h := get_unpack S l ⟨8 * c.val + r.val, by omega⟩
  rw [unpackByte_index] at h
  exact h

@[simp] theorem elem_ofElems (f : Fin 8 → Fin 8 → Byte) (r c : Fin 8) : elem (ofElems f) r c = f r c := by
  have h1 : Fin.ofNat 8 ((8 * c.val + r.val) % 8) = r := Fin.ext (by rw [Fin.val_ofNat]; omega)
  have h2 : Fin.ofNat 8 ((8 * c.val + r.val) / 8) = c := Fin.ext (by rw [Fin.val_ofNat]; omega)
  simp only [elem, ofElems, Vector.getElem_ofFn, h1, h2]

/-- A block is determined by its matrix elements. -/
theorem block_ext {M N : Block} (h : ∀ r c, elem M r c = elem N r c) : M = N := by
  ext k hk : 1
  have := h ⟨k % 8, by omega⟩ ⟨k / 8, by omega⟩
  simpa [elem, Nat.div_add_mod] using this

@[simp] theorem laneOf_pack (b : Vector Block 4) (l : Lane) : laneOf (pack b) l = b[l] := by
  refine block_ext fun r c => ?_
  rw [elem_laneOf, at_pack]
  rfl

/-- Two states whose four lanes agree are equal. -/
theorem state_ext_lane {S S' : TState} (h : ∀ l, laneOf S l = laneOf S' l) : S = S' :=
  state_ext fun l r c => by rw [← elem_laneOf, ← elem_laneOf, h l]

theorem laneOf_xorState (S S' : TState) (l : Lane) : laneOf (xorState S S') l = xor1 (laneOf S l) (laneOf S' l) :=
  block_ext fun r c => by simp [elem_laneOf, xor1]

theorem laneOf_arcP (S : TState) (i : Nat) (l : Lane) : laneOf (arcP S i) l = arcP1 (laneOf S l) i := by
  refine block_ext fun r c => ?_
  rw [elem_laneOf, at_arcP, arcP1, elem_ofElems, elem_laneOf]
  split <;> simp_all

theorem laneOf_arcQ (S : TState) (i : Nat) (l : Lane) : laneOf (arcQ S i) l = arcQ1 (laneOf S l) i := by
  refine block_ext fun r c => ?_
  rw [elem_laneOf, at_arcQ, arcQ1, elem_ofElems, elem_laneOf]
  split <;> simp_all

theorem laneOf_subBytes (S : TState) (l : Lane) : laneOf (subBytes S) l = subBytes1 (laneOf S l) :=
  block_ext fun r c => by simp [elem_laneOf, subBytes1]

theorem laneOf_shiftBytes (sigma : Fin 8 → Nat) (S : TState) (l : Lane) :
    laneOf (shiftBytes sigma S) l = shiftBytes1 sigma (laneOf S l) :=
  block_ext fun r c => by simp only [elem_laneOf, at_shiftBytes, shiftBytes1, elem_ofElems]

theorem mixSum1_laneOf (S : TState) (l : Lane) (i c : Fin 8) (n : Nat) :
    mixSum1 (laneOf S l) i c n = mixSumUpTo S l i c n := by
  induction n with
  | zero => rfl
  | succ n ih => rw [mixSum1, mixSumUpTo, ih, elem_laneOf]

theorem laneOf_mixBytes (S : TState) (l : Lane) : laneOf (mixBytes S) l = mixBytes1 (laneOf S l) :=
  block_ext fun i c => by rw [elem_laneOf, at_mixBytes, mixBytes1, elem_ofElems, mixSum1_laneOf]

theorem laneOf_roundsP (n : Nat) (S : TState) (l : Lane) : laneOf (roundsP n S) l = roundsP1 n (laneOf S l) := by
  induction n with
  | zero => rfl
  | succ n ih => rw [roundsP, roundP, laneOf_mixBytes, shiftP, laneOf_shiftBytes, laneOf_subBytes, laneOf_arcP, ih, roundsP1]

theorem laneOf_roundsQ (n : Nat) (S : TState) (l : Lane) : laneOf (roundsQ n S) l = roundsQ1 n (laneOf S l) := by
  induction n with
  | zero => rfl
  | succ n ih => rw [roundsQ, roundQ, laneOf_mixBytes, shiftQ, laneOf_shiftBytes, laneOf_subBytes, laneOf_arcQ, ih, roundsQ1]

theorem laneOf_permP (S : TState) (l : Lane) : laneOf (permP S) l = permP1 (laneOf S l) := laneOf_roundsP _ S l

theorem laneOf_permQ (S : TState) (l : Lane) : laneOf (permQ S) l = permQ1 (laneOf S l) := laneOf_roundsQ _ S l

/-- One lane of the compression function (R131: "Lane l of the result depends only on lane l of h and lane l of m"). -/
theorem laneOf_compress (h m : TState) (l : Lane) : laneOf (compress h m) l = compress1 (laneOf h l) (laneOf m l) := by
  rw [compress, laneOf_xorState, laneOf_xorState, laneOf_permP, laneOf_xorState, laneOf_permQ, compress1]

theorem laneOf_outX (S : TState) (l : Lane) : laneOf (outX S) l = outX1 (laneOf S l) := by
  rw [outX, laneOf_xorState, laneOf_permP, outX1]

theorem laneOf_iv (l : Lane) : laneOf iv l = iv1 := by
  revert l
  decide +kernel

end Sys2Proof.Laws
end

