-- ==== Sys2Proof/Tests/Slice0.lean ====
section
/-! SUPPORT. Tests. Expected results come from spec/95_test_vectors.md (V1 to V20), whose section each test names; the last part
shows, for each obligation with hypotheses, a concrete state and operands that meet them. -/

namespace Sys2Proof.Tests

open Sys2Proof.Machine

-- One theorem after another: checked all at once they take more memory than the check allows.
set_option Elab.async false

/-! ### Helpers -/

/-- The n bytes of a value, most significant first: a byte string as the spec prints it. -/
def hex (n v : Nat) : List Byte := (List.range n).map fun i => BitVec.ofNat 8 (v >>> (8 * (n - 1 - i)))

/-- The V3 state: block X[l] has byte k = 64l + k. -/
def v3 : TState := pack (Vector.ofFn fun l => Vector.ofFn fun k => BitVec.ofNat 8 (64 * l.val + k.val))

/-- After reset, with TS[1] = IV and TS[2] = the V3 state. -/
def prepared : State := (State.reset.setTs 1 iv).setTs 2 v3

/-- Lane l of TS[d] unpacked, after a command that ended in a next state. -/
def laneOf? (r : Result) (d : TsReg) (l : Lane) : Option (List Byte) :=
  match r with
  | .next s => some ((List.range 64).map (unpackByte (s.tsReg d) l))
  | _ => none

/-- Something about the state a result ends in. -/
def after? {α : Type} (f : State → α) (r : Result) : Option α :=
  match r with
  | .next s => some (f s)
  | _ => none

/-- From reset, sources at 0x1000 + 0x100 l, lane lengths as given, digests to 0x2000. -/
def armed (a b c d : Word) : State :=
  { State.reset with x := #v[0x1000#64, 0x1100#64, 0x1200#64, 0x1300#64, a, b, c, d, 0x2000#64] }

/-- The same with the last byte of lane 0's source (of 5) and the last digest byte refused by the platform. -/
def fenced : State := { armed 5 5 5 5 with unreadable := [⟨0x1004, 1⟩], unwritable := [⟨0x207F, 1⟩] }

/-- A Finalized hasher. -/
def finished : State := { armed 5 5 0 5 with fin := true }

/-- A faulted engine with one access pending. -/
def faulted (a : Access) : State := { armed 5 5 0 5 with fault := .phase, pending := [a] }

/-- One access pending. -/
def facing (a : Access) : State := { armed 5 5 0 5 with pending := [a] }

/-- The same on a bus with the 17 registers of R36 at 0x40000000, 8 bytes apart. -/
def wired (o : ByteOrder) (a : Access) : State :=
  { facing a with transport := .mapped 0x40000000#64 8 17, byteOrder := o }

/-! ### WellFormed: each check refuses an ill-formed term (R75) -/

theorem test_wf_refuses_arcp_rnd : (Instr.arcp 1 0 10#4).wellFormed = false ∧ (Instr.arcp 1 0 9#4).wellFormed = true := by decide

theorem test_wf_refuses_arcq_rnd : (Instr.arcq 3 3 15#4).wellFormed = false ∧ (Instr.arcq 3 3 9#4).wellFormed = true := by decide

/-! ### Decoding (V20, and the words of R79, R91 to R135) -/

theorem test_decode_streaming :
    [0x1, 0x2, 0x3, 0x4, 0x5].map (decodeTableWord 32)
      = [some .reset, some .update, some .final, some .finalr, some .digest] := by decide

theorem test_decode_transposition :
    [0x110, 0xC11].map (decodeTableWord 32) = [some (.pack 1), some (.unpack 3)] := by decide

theorem test_decode_primitives :
    [0x30520, 0x70621, 0x522, 0x523, 0x524, 0x525, 0x2726, 0x20, 0x3F26].map (decodeTableWord 32)
      = [some (.arcp 1 1 3#4), some (.arcq 2 1 7#4), some (.subb 1 1), some (.shbp 1 1), some (.shbq 1 1), some (.mixb 1 1),
         some (.xors 3 1 2), some (.arcp 0 0 0#4), some (.xors 3 3 3)] := by decide

theorem test_decode_permutations_compression :
    [0x630, 0xA31, 0x2538, 0x539, 0x2C38].map (decodeTableWord 32)
      = [some (.permp 2 1), some (.permq 2 2), some (.cmpr 1 1 2), some (.outx 1 1), some (.cmpr 0 3 2)] := by decide

theorem test_encode_words :
    encode (.arcq 2 1 7#4) = 0x70621#64 ∧ encode (.cmpr 0 3 2) = 0x2C38#64 ∧ encode (.unpack 3) = 0xC11#64 ∧
      encode .digest = 0x5#64 := by decide

/-- V18: the values that are no legal command, each rejected by name. -/
theorem test_decode_rejects :
    decode 0x0#64 = .error (.unknownOpcode 0#8) ∧ decode 0x101#64 = .error .unusedField ∧
    decode 0xA0120#64 = .error .roundIndex ∧ decode 0x100000001#64 = .error .upperHalf ∧
    decode 0x4022#64 = .error .reservedBits ∧ decode 0x10022#64 = .error .unusedField ∧
    decode 0x1003#64 = .error .unusedField ∧ decode 0x6#64 = .error (.unknownOpcode 6#8) := by decide

/-! ### Step and the register space -/

theorem test_step_runs_fetched_word :
    step (State.reset.withFetchWord 32 0x2726) = exec (.xors 3 1 2) State.reset := by rfl

theorem test_step_idle : step (armed 5 5 0 5) = .next (armed 5 5 0 5) := by rfl

/-- V18: "after any fault: WR x0, 7; RD x0 still works". -/
theorem test_host_write_read :
    (after? (fun s => s.readReg 8) (step (faulted (.wr 8 7#64)))) = some 7#64 := by decide

theorem test_host_store_load :
    after? (fun s => s.returned) (step { facing (.load 0x30#64) with mem := Memory.write [] 0x30 0xAB#8 }) = some 0xAB#64 := by
  decide

/-- Register 16, x8, is at 0x40000080 (R36, stride 8); on a big-endian bus the byte 0x01 at the lowest address is the most
significant one (R55 g). -/
theorem test_bus_write :
    (after? (fun s => s.dst) (step (wired .big (.busWr 0x40000080#64 #v[1, 2, 3, 4, 5, 6, 7, 8])))) = some 0x0102030405060708#64 ∧
    (after? (fun s => s.dst) (step (wired .little (.busWr 0x40000080#64 #v[1, 2, 3, 4, 5, 6, 7, 8])))) = some 0x0807060504030201#64 := by
  decide

/-- STATUS is register 1 (R36) and reads 0x440 after UPDATE with lane 2 absent (V18). -/
theorem test_bus_read :
    (after? (fun s => s.busData.toList) (step { wired .big (.busRd 0x40000008#64) with lskip := 4#4, fill := 5 }))
      = some [0, 0, 0, 0, 0, 0, 0x04, 0x40] := by decide

/-! ### GF(2^8) (V19) -/

theorem test_gmul :
    xtime 0x80#8 = 0x1B#8 ∧ gmul 0x57#8 0x83#8 = 0xC1#8 ∧ gmul 0x57#8 0x13#8 = 0xFE#8 ∧ gmul 0x02#8 0xFF#8 = 0xE5#8 ∧
      gmul 0x07#8 0x80#8 = 0xAD#8 ∧ inv 0x02#8 = 0x8D#8 ∧ inv 0x53#8 = 0xCA#8 := by decide +kernel

/-! ### PACK and UNPACK (V3) -/

/-- Lane 0 of the packed word W[1]: bytes 01 09 11 19 21 29 31 39, from data memory at 0x1000. -/
theorem test_pack :
    after? (fun s => (List.range 8).map (byteOf ((s.tsReg 3).word 1)))
      (exec (.pack 3) { armed 0 0 0 0 with mem := storeAll [] (storesAt 0x1000#64 (hex 64 0x000102030405060708090a0b0c0d0e0f101112131415161718191a1b1c1d1e1f202122232425262728292a2b2c2d2e2f303132333435363738393a3b3c3d3e3f)) })
      = some (hex 8 0x0109111921293139) := by decide +kernel

theorem test_unpack :
    after? (fun s => (readBytes s.mem 0xC0#64 4, readBytes s.mem 0xFC#64 5))
      (exec (.unpack 2) prepared) = some (hex 4 0xc0c1c2c3, hex 5 0xfcfdfeff00) := by decide +kernel

/-! ### Round primitives (V4 to V10) -/

theorem test_arcp : laneOf? (exec (.arcp 1 2 3#4) prepared) 1 1 = some
    (hex 64 0x43414243444546475b494a4b4c4d4e4f73515253545556576b595a5b5c5d5e5f23616263646566673b696a6b6c6d6e6f13717273747576770b797a7b7c7d7e7f) := by
  decide +kernel

theorem test_arcq : laneOf? (exec (.arcq 1 2 3#4) prepared) 1 1 = some
    (hex 64 0xbfbebdbcbbbab9bbb7b6b5b4b3b2b1a3afaeadacabaaa98ba7a6a5a4a3a2a1939f9e9d9c9b9a99db97969594939291c38f8e8d8c8b8a89eb87868584838281f3) := by
  decide +kernel

theorem test_subb : laneOf? (exec (.subb 2 2) prepared) 2 1 = some
    (hex 64 0x09832c1a1b6e5aa0523bd6b329e32f8453d100ed20fcb15b6acbbe394a4c58cfd0efaafb434d338545f9027f503c9fa851a3408f929d38f5bcb6da2110fff3d2) := by
  decide +kernel

theorem test_shbp : laneOf? (exec (.shbp 1 2) prepared) 1 1 = some
    (hex 64 0x4049525b646d767f48515a636c757e475059626b747d464f58616a737c454e576069727b444d565f68717a434c555e677079424b545d666f78414a535c656e77) := by
  decide +kernel

theorem test_shbq : laneOf? (exec (.shbq 1 2) prepared) 1 1 = some
    (hex 64 0x48596a7b44556677506172434c5d6e7f58697a4b54657647607142535c6d7e4f68794a5b64754657704152636c7d4e5f78495a6b74455667405162737c4d5e6f) := by
  decide +kernel

theorem test_mixb : laneOf? (exec (.mixb 1 2) prepared) 1 1 = some
    (hex 64 0xd8d3cac9d4dfc6c5c0cbd2d1ccc7dedde8e3faf9e4eff6f5f0fbe2e1fcf7eeedb8b3aaa9b4bfa6a5a0abb2b1aca7bebd88839a99848f9695909b82819c978e8d) := by
  decide +kernel

theorem test_xors : (laneOf? (exec (.xors 3 2 1) prepared) 3 3).map (List.drop 56) = some (hex 8 0xf8f9fafbfcfdffff) := by
  decide +kernel

/-! ### Permutations and compression (V11 to V14) -/

theorem test_permp : laneOf? (exec (.permp 3 2) prepared) 3 1 = some
    (hex 64 0xd4c0f1f92cc4ae287b3e5e2c90bfcef5c814bd2dbba5b5549ceb8be3889ad1b2f5c10e4fe520c5264b2926aedb48afe20f795f7ca02b452d61faf428cdbbaa06) := by
  decide +kernel

theorem test_permq : laneOf? (exec (.permq 3 2) prepared) 3 1 = some
    (hex 64 0x08cce1f96d30d072c59e24a275252ca5078b6474e25e757629659cf868d046c181703d4bbae7369b3d03ee6d9462745da0688a2d116c3c6eb764b88eb2cc185f) := by
  decide +kernel

theorem test_cmpr : laneOf? (exec (.cmpr 1 1 2) prepared) 1 3 = some
    (hex 64 0x5ff385dba2bcdd27fe64f66be5d196b0ad3f9d81fd4038fcbe2af956166bbe00c5204dfdfa7759ea152c4fec90f98e7c4ed0e1cbbb413dfc4fcf60e7e60a7f70) := by
  decide +kernel

theorem test_outx : laneOf? (exec (.outx 2 2) prepared) 2 1 = some
    (hex 64 0x9481b3ba6881e86f33771467dcf280ba9845ef7eeff0e303c4b2d1b8d4c78fed95a06c2c8145a34123404cc5b725c18d7f082d0fd45e335a19838e53b1c6d479) := by
  decide +kernel

/-! ### The streaming commands (V1, V2, V17, V18) -/

theorem test_reset : after? State.status (exec .reset finished) = some 0x20#64 := by decide

theorem test_reset_refused : after? State.status (exec .reset { armed 5 5 0 6 with fault := .len }) = some 0x23#64 := by decide

/-- V18: x4..x7 = 5,5,0,5. -/
theorem test_update : after? (fun s => (s.status, s.fill.val)) (exec .update (armed 5 5 0 5)) = some (0x440#64, 5) := by
  decide +kernel

/-- V18: x4..x7 = 5,5,0,6. -/
theorem test_update_unequal : after? State.status (exec .update (armed 5 5 0 6)) = some 0x23#64 := by decide

/-- V1 and program 1. -/
theorem test_final : after? (fun s => (readBytes s.mem 0x2060#64 32, s.status, s.blkcnt)) (exec .final (armed 0 0 0 0))
    = some (hex 32 0x1a52d11d550039be16107f9c58db9ebcc417f16f736adb2502567119f0083467, 0x10#64, 1#64) := by decide +kernel

/-- V18: a second FINAL. -/
theorem test_final_twice : after? State.status (exec .final finished) = some 0x12#64 := by decide

/-- V15, n = 0. -/
theorem test_finalr : after? (fun s => (readBytes s.mem 0x2000#64 32, s.status)) (exec .finalr (armed 0 0 0 0))
    = some (hex 32 0x1a52d11d550039be16107f9c58db9ebcc417f16f736adb2502567119f0083467, 0x20#64) := by decide +kernel

/-- V2, in lane 1. -/
theorem test_digest :
    after? (fun s => (readBytes s.mem 0x2020#64 32, s.status))
      (exec .digest { armed 3 3 3 3 with mem := storeAll [] (storesAt 0x1100#64 (hex 3 0x616263)) })
    = some (hex 32 0xf3c1bb19c048801326a7efbcf16e3d7887446249829c379e1840d1a3a1e7d4d2, 0x20#64) := by decide +kernel

/-- V18: FINAL with the destination partly not writable. -/
theorem test_final_bus : after? (fun s => s.fault) (exec .final fenced) = some .bus := by decide

/-! ### Hypotheses met: one witness for each obligation that has some

The plainest hypothesis, that no fault stands, is met by every state here but `faulted`. -/

theorem test_hyp_DecodeInvertsEncode : (Instr.arcp 3 3 9#4).wellFormed = true ∧ (Instr.cmpr 3 3 3).wellFormed = true := by decide

theorem test_hyp_DecodedValueIsTheEncoding : decode 0x90F20#64 = .ok (.arcp 3 3 9#4) ∧ decode 0x3F38#64 = .ok (.cmpr 3 3 3) := by
  decide

/-- The third row (FINAL), and the row of ARCP with the largest legal RND and the smallest illegal one. -/
theorem test_hyp_MatchAndMaskDecide :
    (opcodeRows.map fun r => (r.pattern, r.mask)).contains (0x00000003#32, 0xFFFFFFFF#32) = true ∧
    (opcodeRows.map fun r => (r.pattern, r.mask)).contains (0x00000020#32, 0xFFF0F0FF#32) = true ∧
    0x90F20#32 &&& 0xFFF0F0FF#32 = 0x20#32 ∧ ((0x90F20#32).extractLsb' 16 4).toNat ≤ 9 ∧
    0xA0F20#32 &&& 0xFFF0F0FF#32 = 0x20#32 ∧ ¬ ((0xA0F20#32).extractLsb' 16 4).toNat ≤ 9 := by decide

/-- Each of the nine grounds of rejection has a value. -/
theorem test_hyp_IllegalValueFaults :
    (armed 5 5 0 5).fault = .none ∧ (match decode 0x6#64 with | .ok _ => false | .error _ => true) = true ∧
    (0x100000001#64).extractLsb' 32 32 ≠ 0#32 ∧ (fieldsOf 0x6#64).op.toNat = 6 ∧
    (0x4022#64).extractLsb' 14 2 ≠ 0#2 ∧ (0x100022#64).extractLsb' 20 12 ≠ 0#12 ∧
    ((fieldsOf 0x101#64).op.toNat = 0x01 ∧ (fieldsOf 0x101#64).d ≠ 0) ∧
    ((fieldsOf 0xC10#64).op.toNat = 0x10 ∧ (fieldsOf 0xC10#64).s ≠ 0) ∧
    ((fieldsOf 0x1039#64).op.toNat = 0x39 ∧ (fieldsOf 0x1039#64).t ≠ 0) ∧
    ((fieldsOf 0x10022#64).op.toNat = 0x22 ∧ (fieldsOf 0x10022#64).rnd ≠ 0#4) ∧ 9 < (fieldsOf 0xA0120#64).rnd.toNat := by decide

theorem test_hyp_StepRunsDecodedCommand :
    (facing (.wr 0 0x2726#64)).pending = [.wr 0 0x2726#64] ∧ decode 0x2726#64 = .ok (.xors 3 1 2) ∧
    (facing (.wr 0 0x101#64)).pending = [.wr 0 0x101#64] ∧ (facing (.wr 0 0x101#64)).fault = .none ∧
    decode 0x101#64 = .error .unusedField := by decide

/-- At every number where two of the statement's ranges meet. -/
theorem test_hyp_HostReadsRegisters :
    (facing (.rd 16)).pending = [.rd 16] ∧
    [0, 1, 2, 3, 4, 7, 8, 15, 16, 17].map (State.readReg { armed 5 6 7 9 with blkcnt := 3#64, fill := 63 })
      = [0#64, 0x40#64, 63#64, 3#64, 0#64, 0#64, 0x1000#64, 9#64, 0x2000#64, 0#64] := by decide

/-- HostReadsRegisters over a bus: the first and the last register of a window, and a bus read that reaches one. -/
theorem test_hyp_HostReadsRegisters_bus :
    let s := wired .big (.busRd 0x40000080#64)
    s.transport = .mapped 0x40000000#64 8 17 ∧ 0 < 8 ∧ 0 < 17 ∧ 16 < 17 ∧ 8 * 16 < 2 ^ 64 ∧
    s.pending = [.busRd 0x40000080#64] ∧ s.regAt 0x40000000#64 = some 0 ∧ s.regAt 0x40000080#64 = some 16 := by decide

theorem test_hyp_HostWritesRegisters :
    (facing (.wr 16 7#64)).pending = [.wr 16 7#64] ∧ (facing (.wr 17 7#64)).pending = [.wr 17 7#64] ∧ (16 : Nat) ≠ 0 ∧
    ((armed 5 5 0 5).writeReg 16 7#64).dst = 7#64 ∧ (armed 5 5 0 5).writeReg 17 7#64 = armed 5 5 0 5 ∧
    (armed 5 5 0 5).writeReg 7 7#64 = armed 5 5 0 5 := by decide

/-- HostWritesRegisters over a bus: the bytes of 3 (FINAL) for CMD in either order; and addresses between two registers, past
the last, before the first, and without a window, where no register is reached. -/
theorem test_hyp_HostWritesRegisters_bus :
    (wired .big (.busWr 0x40000000#64 #v[0, 0, 0, 0, 0, 0, 0, 3])).pending = [.busWr 0x40000000#64 #v[0, 0, 0, 0, 0, 0, 0, 3]] ∧
    (wired .big (.rd 0)).regAt 0x40000000#64 = some 0 ∧
    (∀ i : Fin 8, (#v[0, 0, 0, 0, 0, 0, 0, 3] : Vector Byte 8)[i] = (3#64).extractLsb' (56 - 8 * i.val) 8) ∧
    (∀ i : Fin 8, (#v[3, 0, 0, 0, 0, 0, 0, 0] : Vector Byte 8)[i] = (3#64).extractLsb' (8 * i.val) 8) ∧
    [0x40000004#64, 0x40000088#64, 0x3FFFFFFF#64].map (wired .little (.rd 0)).regAt = [none, none, none] ∧
    (facing (.rd 0)).regAt 0x40000000#64 = none := by decide

theorem test_hyp_ResetValues : (armed 5 5 0 5).fault = .none := by decide

theorem test_hyp_HardwareReset :
    (facing .hardReset).pending = [.hardReset] ∧ (facing (.resetDuring 0x3#64)).pending = [.resetDuring 0x3#64] := by decide

theorem test_hyp_FaultedEngineRefuses :
    (faulted (.wr 0 0x1#64)).fault ≠ .none ∧ (faulted (.wr 0 0x1#64)).pending = [.wr 0 0x1#64] ∧
    (faulted (.rd 1)).fault ≠ .none ∧ (faulted (.rd 1)).pending = [.rd 1] ∧
    (faulted (.wr 16 7#64)).fault ≠ .none ∧ (faulted (.wr 16 7#64)).pending = [.wr (8 + (8 : Fin 9).val) 7#64] := by decide

theorem test_hyp_OnlyHardwareResetClearsFault :
    (faulted .hardReset).fault ≠ .none ∧
    ∃ t, step (faulted .hardReset) = .next t ∧ t.fault ≠ (faulted .hardReset).fault :=
  ⟨by decide, _, rfl, by simp [State.hardReset, faulted]⟩

/-- The five clauses: a faulted engine, an illegal value, a Finalized hasher, unequal lengths, and a bus fault. -/
theorem test_hyp_FaultPriority :
    (faulted (.rd 1)).fault ≠ .none ∧ finished.fault = .none ∧ finished.fin = true ∧ decode 0x101#64 = .error .unusedField ∧
    (armed 5 5 0 6).fault = .none ∧ (armed 5 5 0 6).lengths = .unequal ∧ (armed 5 5 0 6).fin = false ∧
    fenced.fault = .none ∧ ∃ t, writeCmd 0x3#64 fenced = .next t ∧ t.fault = .bus :=
  ⟨by decide, by decide, by decide, by decide, by decide, by decide, by decide, by decide, _, rfl, by decide +kernel⟩

/-- Two non-zero lengths that differ; and equal ones beside a zero. -/
theorem test_hyp_LengthFault :
    (armed 5 5 0 6).fault = .none ∧ ((armed 5 5 0 6).len 0 ≠ 0#64 ∧ (armed 5 5 0 6).len 3 ≠ 0#64 ∧
      (armed 5 5 0 6).len 0 ≠ (armed 5 5 0 6).len 3) ∧ (armed 5 5 0 6).fin = false ∧
    (∀ l l', (armed 5 5 0 5).len l ≠ 0#64 → (armed 5 5 0 5).len l' ≠ 0#64 → (armed 5 5 0 5).len l = (armed 5 5 0 5).len l') := by
  decide

theorem test_hyp_ContractFaultsChangeNothingElse :
    (∃ t, writeCmd 0x6#64 (armed 5 5 0 5) = .next t ∧ t.fault = .illegal) ∧
    (∃ t, writeCmd 0x3#64 finished = .next t ∧ t.fault = .phase) ∧
    (∃ t, writeCmd 0x5#64 (armed 5 5 0 6) = .next t ∧ t.fault = .len) :=
  ⟨⟨_, rfl, by decide⟩, ⟨_, rfl, by decide⟩, ⟨_, rfl, by decide⟩⟩

theorem test_hyp_TranspositionBusFault :
    fenced.fault = .none ∧ fenced.readable (fenced.ptr 0 + BitVec.ofNat 64 (4 : Fin 64).val) = false ∧
    fenced.writable (fenced.dst + BitVec.ofNat 64 127) = false := by decide

theorem test_hyp_UpdateBusFault :
    fenced.fault = .none ∧ fenced.fin = false ∧ fenced.lengths = .common 5#64 ∧ fenced.active 0 = true ∧
    fenced.readable (fenced.ptr 0 + BitVec.ofNat 64 4) = false ∧
    -- an absent lane, and a buffer position (5) that UPDATE of 5 bytes from FILL = 0 does not touch
    { armed 5 5 0 5 with unreadable := [⟨0x1004, 1⟩] }.active 2 = false ∧
    (∀ p < 5, p % 64 ≠ (5 : Fin 64).val) := by decide

theorem test_hyp_FinalizeBusFault :
    fenced.fault = .none ∧ fenced.fin = false ∧ fenced.writable (fenced.dst + BitVec.ofNat 64 127) = false ∧
    fenced.lengths ≠ .unequal ∧ fenced.active 0 = true ∧ fenced.len 0 = 5#64 ∧
    fenced.readable (fenced.ptr 0 + BitVec.ofNat 64 4) = false := by decide

/-- DIGEST of FinalizeBusFault with its message bytes all readable and its last destination byte not writable. -/
theorem test_hyp_FinalizeBusFault_digest :
    let s := { armed 5 5 5 5 with unwritable := [⟨0x207F, 1⟩] }
    s.fault = .none ∧ s.lengths ≠ .unequal ∧ s.writable (s.dst + BitVec.ofNat 64 127) = false ∧
    s.writable (s.dst + BitVec.ofNat 64 126) = true ∧
    (∀ l, s.active l = true → ∀ k < 5, s.readable (s.ptr l + BitVec.ofNat 64 k) = true) ∧ (∀ l, (s.len l).toNat = 5) := by
  decide

theorem test_hyp_PackResult :
    (armed 5 5 0 5).fault = .none ∧
    ∀ (l : Lane) (k : Fin 64), (armed 5 5 0 5).readable ((armed 5 5 0 5).ptr l + BitVec.ofNat 64 k.val) = true := by
  decide +kernel

theorem test_hyp_UnpackResult :
    prepared.fault = .none ∧ ∀ i < 256, prepared.writable (prepared.dst + BitVec.ofNat 64 i) = true := by decide +kernel

theorem test_hyp_ArcpResult : prepared.fault = .none ∧ (9#4).toNat ≤ 9 ∧ (0#4).toNat ≤ 9 := by decide

theorem test_hyp_ArcqResult : prepared.fault = .none ∧ (9#4).toNat ≤ 9 ∧ (0#4).toNat ≤ 9 := by decide

/-- No fault stands: the one hypothesis of SubbResult, ShiftResults, MixbResult, XorsResult, PermpResult, PermqResult,
PermutationsAreTheirRounds, CmprResult, OutxResult and ResetResult. -/
theorem test_hyp_no_fault : prepared.fault = .none := by decide

/-- A byte that is not zero and its inverse (V19). -/
theorem test_hyp_SboxTableIsFormula : (0x53#8 : Byte) ≠ 0#8 ∧ gmul 0x53#8 0xCA#8 = 1#8 := by decide +kernel

/-- Each function of the list is in it, here the first and the last. -/
theorem test_hyp_LanesAreIndependent :
    (fun S => arcP S 0) ∈ [fun S => arcP S 0, fun S => arcQ S 9, subBytes, shiftP, shiftQ, mixBytes, permP, permQ, outX] ∧
    outX ∈ [fun S => arcP S 0, fun S => arcQ S 9, subBytes, shiftP, shiftQ, mixBytes, permP, permQ, outX] :=
  ⟨List.mem_cons_self, by simp⟩

theorem test_hyp_CompressionComposes : prepared.fault = .none ∧ (1 : TsReg) ≠ 3 ∧ (2 : TsReg) ≠ 3 := by decide

theorem test_hyp_EmptyUpdateIsNoOp :
    (armed 0 0 0 0).fault = .none ∧ (∀ l, (armed 0 0 0 0).len l = 0#64) ∧ (armed 0 0 0 0).fin = false ∧
    { armed 0 0 0 0 with fin := true }.fin = true := by decide

/-- Lane 2 absent; FILL = 62, so that 5 bytes go to positions 62, 63, 0, 1, 2 and the last of them is stream byte 66. -/
theorem test_hyp_UpdateAbsorbs :
    let s := { armed 5 5 0 5 with fill := 62 }
    s.fault = .none ∧ s.fin = false ∧ s.lengths = .common 5#64 ∧ s.active 0 = true ∧ s.active 2 = false ∧
    (∀ l, s.active l = true → ∀ k < 5, s.readable (s.ptr l + BitVec.ofNat 64 k) = true) ∧
    (s.fill.val ≤ 66 ∧ 66 < s.fill.val + 5 ∧ s.fill.val + 5 ≤ 66 + 64) ∧
    (∀ p < 67, s.fill.val ≤ p → p % 64 ≠ (3 : Fin 64).val) := by decide

theorem test_hyp_PaddingBlocks : (55 : Fin 64).val < 56 ∧ 56 ≤ (56 : Fin 64).val := by decide

theorem test_hyp_FinalResult :
    let s := armed 5 5 0 5
    s.fault = .none ∧ s.fin = false ∧ ∀ i < 128, s.writable (s.dst + BitVec.ofNat 64 i) = true := by decide +kernel

theorem test_hyp_FinalrResult :
    let s := { armed 5 5 0 5 with fill := 63 }
    s.fault = .none ∧ s.fin = false ∧ ∀ i < 128, s.writable (s.dst + BitVec.ofNat 64 i) = true := by decide +kernel

theorem test_hyp_DigestResult :
    let s := finished
    s.fault = .none ∧ s.lengths ≠ .unequal ∧
    (∀ l, s.active l = true → ∀ k < 5, s.readable (s.ptr l + BitVec.ofNat 64 k) = true) ∧ (s.len 0).toNat = 5 ∧
    ∀ i < 128, s.writable (s.dst + BitVec.ofNat 64 i) = true := by decide +kernel

theorem test_hyp_FinalizedPhase :
    finished.fault = .none ∧ finished.fin = true ∧ (Instr.outx 1 2).wellFormed = true ∧
    Instr.outx 1 2 ∉ [Instr.reset, .update, .final, .finalr, .digest] ∧
    ∃ t, exec .reset finished = .next t ∧ t.fault = .none :=
  ⟨by decide, by decide, by decide, by decide, _, rfl, by decide⟩

theorem test_hyp_StreamIgnoresScratchRegisters : (3 : TsReg) ≠ 0 ∧ ∃ t, exec .digest prepared = .next t := ⟨by decide, _, rfl⟩

/-- Both parts empty, one part empty, and 130 bytes in two parts (V16). -/
theorem test_hyp_SplitUpdateEquivalence :
    (armed 0 0 0 0).fault = .none ∧ (armed 0 0 0 0).fin = false ∧ 0 + 0 < 2 ^ 64 ∧ 64 + 66 < 2 ^ 64 ∧
    ∀ (l : Lane), ∀ k < 64 + 66, (armed 0 0 0 0).readable (0x1000#64 + BitVec.ofNat 64 (256 * l.val) + BitVec.ofNat 64 k) = true := by
  decide +kernel

theorem test_hyp_DigestIsGroestl256 :
    let s := armed 65 65 65 65
    s.fault = .none ∧ (∀ l, s.len l = 65#64) ∧
    (∀ (l : Lane), ∀ k < 65, s.readable (s.ptr l + BitVec.ofNat 64 k) = true) ∧
    ∀ i < 128, s.writable (s.dst + BitVec.ofNat 64 i) = true := by decide +kernel

theorem test_hyp_EmptyStringDigest :
    let s := armed 0 0 0 0
    s.fault = .none ∧ (∀ i < 128, s.writable (s.dst + BitVec.ofNat 64 i) = true) ∧ s.isEmpty = true ∧ s.tsReg 0 = iv ∧
      ∀ l, s.len l = 0#64 := by
  decide +kernel

/-- The three clauses: a fresh hasher; one that has absorbed nothing and faces an UPDATE with lane 2 absent; and one that has
absorbed nothing and faces FINAL. -/
theorem test_hyp_StreamDigestIsGroestl256 :
    let s := armed 5 5 0 5
    FreshHasher s ∧ s.hasAbsorbed 0 [] ∧ s.fault = .none ∧ s.lengths = .common 5#64 ∧ s.active 0 = true ∧
    (∀ j, s.active j = true → ∀ k < 5, s.readable (s.ptr j + BitVec.ofNat 64 k) = true) ∧
    ∀ i < 128, s.writable (s.dst + BitVec.ofNat 64 i) = true := by
  unfold FreshHasher State.hasAbsorbed
  decide +kernel

/-- Commands that end in a next state: NoCommandWritesOperandRegisters and OnlyStoringCommandsWriteMemory (its three
clauses). -/
theorem test_hyp_exec_completes :
    (∃ t, exec (.unpack 3) prepared = .next t) ∧ (∃ t, exec .final prepared = .next t) ∧ (∃ t, exec .update prepared = .next t) :=
  ⟨⟨_, rfl⟩, ⟨_, rfl⟩, ⟨_, rfl⟩⟩

/-- Both directions of AdmissionByByte, for PACK and UNPACK. -/
theorem test_hyp_AdmissionByByte :
    (∃ t, exec (.pack 1) fenced = .next t ∧ t.fault = .bus) ∧ (∃ t, exec (.pack 1) prepared = .next t ∧ t.fault ≠ .bus) ∧
    (∃ t, exec (.unpack 1) fenced = .next t ∧ t.fault = .bus) ∧ (∃ t, exec (.unpack 1) prepared = .next t ∧ t.fault ≠ .bus) :=
  ⟨⟨_, rfl, by decide⟩, ⟨_, rfl, by decide⟩, ⟨_, rfl, by decide⟩, ⟨_, rfl, by decide⟩⟩

theorem test_hyp_LskipDiscipline :
    (∃ t, exec .reset (armed 5 5 0 5) = .next t ∧ t.fault = .none) ∧
    (∃ t, exec .update (armed 5 5 0 5) = .next t ∧ t.fault = .none) ∧
    (∃ t, exec (.subb 1 1) (armed 5 5 0 5) = .next t ∧ t.fault = .none) :=
  ⟨⟨_, rfl, by decide⟩, ⟨_, rfl, by decide +kernel⟩, ⟨_, rfl, by decide⟩⟩

theorem test_hyp_HostMemoryAccess :
    (facing (.store 0xFFFFFFFFFFFFFFFF#64 1#8)).pending = [.store 0xFFFFFFFFFFFFFFFF#64 1#8] ∧
    (facing (.load 0#64)).pending = [.load 0#64] := by decide

theorem test_hyp_StepKeepsMemoryCanonical :
    (facing (.store 0xFFFFFFFFFFFFFFFF#64 1#8)).Inv ∧ ∃ t, step (facing (.store 0xFFFFFFFFFFFFFFFF#64 1#8)) = .next t :=
  ⟨by unfold State.Inv; decide, _, rfl⟩

end Sys2Proof.Tests
end

section
/-! PROOFS. The statements of the scope: every step completes (R17), the host's access to the registers by number and over a bus
(R9, R36 to R38), the S-box (R105) and the independence of the lanes (R16). -/

namespace Sys2Proof.Proofs

open Sys2Proof.Machine Sys2Proof.Laws

/-! ### Every step completes (R17) -/

/-- The result is a next state: neither a stop nor a refusal. -/
def Completes (k : Result) : Prop := ∃ t, k = .next t

theorem completes_next (t : State) : Completes (.next t) := ⟨t, rfl⟩

theorem completes_raise (e : FaultCode) (s : State) : Completes (raise e s) := completes_next _

theorem completes_ite {p : Prop} [Decidable p] {k k' : Result} (h : Completes k) (h' : Completes k') :
    Completes (if p then k else k') := by
  split <;> assumption

/-- A command that first looks at FAULT completes if what it goes on with does (R186). -/
theorem completes_running (s : State) {k : Result} (h : Completes k) : Completes (running s k) :=
  completes_ite h (completes_next s)

theorem completes_illegalCommand (s : State) : Completes (illegalCommand s) := completes_running s (completes_raise _ s)

theorem completes_toTs (d : TsReg) (S : TState) (s : State) : Completes (toTs d S s) := completes_running s (completes_next _)

theorem completes_withRound (rnd : BitVec 4) (s : State) {k : Result} (h : Completes k) : Completes (withRound rnd s k) :=
  completes_ite h (completes_illegalCommand s)

theorem completes_execUpdate (s : State) : Completes (execUpdate s) := by
  refine completes_running s (completes_ite (completes_raise _ s) ?_)
  cases s.lengths with
  | unequal => exact completes_raise _ s
  | allZero => exact completes_next s
  | common n => exact completes_ite (completes_next _) (completes_next _)

/-- Every command is total. -/
theorem completes_exec (i : Instr) (s : State) : Completes (exec i s) := by
  cases i with
  | reset => exact completes_running s (completes_next _)
  | update => exact completes_execUpdate s
  | final | finalr | digest =>
    exact completes_running s (completes_ite (completes_raise _ s) (completes_ite (completes_next _) (completes_next _)))
  | pack | unpack => exact completes_running s (completes_ite (completes_next _) (completes_next _))
  | arcp d _ rnd | arcq d _ rnd => exact completes_withRound rnd s (completes_toTs d _ s)
  | subb d | shbp d | shbq d | mixb d | xors d | permp d | permq d | cmpr d | outx d => exact completes_toTs d _ s

theorem completes_writeCmd (v : Word) (s : State) : Completes (writeCmd v s) := by
  rw [writeCmd]
  split
  · exact completes_exec _ s
  · exact completes_illegalCommand s

theorem completes_registerWrite (n : Nat) (v : Word) (s : State) : Completes (registerWrite n v s) :=
  completes_ite (completes_writeCmd v s) (completes_next _)

theorem completes_take (a : Access) (s : State) : Completes (take a s) := by
  cases a with
  | wr n v => exact completes_registerWrite n v s
  | busWr a bytes =>
    rw [take]
    split
    · exact completes_registerWrite _ _ s
    · exact completes_next s
  | rd | busRd | load | store | hardReset | resetDuring => exact completes_next _

/-- Settles O7: the idle step completes, and so does every access of the host. -/
theorem everyStepCompletes : Obligations.EveryStepCompletes := fun s => by
  rw [step]
  split
  · exact completes_next s
  · exact completes_take _ _

/-! ### Reading the registers (R36, R37) -/

/-- A step takes the access at the head of `pending`. -/
theorem step_cons {s : State} {a : Access} {rest : List Access} (h : s.pending = a :: rest) :
    step s = take a { s with pending := rest } := by
  rw [step, h]

theorem step_rd {s : State} {n : Nat} {rest : List Access} (h : s.pending = .rd n :: rest) :
    step s = .next { s with pending := rest, returned := s.readReg n } := step_cons h

/-- CMD and the reserved numbers read zero. -/
theorem readReg_eq_zero (s : State) {n : Nat} (h : n = 0 ∨ 4 ≤ n ∧ n ≤ 7 ∨ 17 ≤ n) : s.readReg n = 0#64 := by
  rw [State.readReg, if_neg (by omega), if_neg (by omega), if_neg (by omega), dif_neg (by omega)]

theorem readReg_status (s : State) : s.readReg 1 = s.status := rfl

theorem toNat_readReg_fill (s : State) : (s.readReg 2).toNat = s.fill.val :=
  Nat.mod_eq_of_lt (by omega : s.fill.val < 2 ^ 64)

theorem readReg_blkcnt (s : State) : s.readReg 3 = s.blkcnt := rfl

theorem readReg_operand (s : State) (i : Fin 9) : s.readReg (8 + i.val) = s.x[i] := by
  have hi : 8 ≤ 8 + i.val ∧ 8 + i.val ≤ 16 := by omega
  rw [State.readReg, if_neg (by omega), if_neg (by omega), if_neg (by omega), dif_pos hi]
  simp

/-- Register number n of a window is reached at `regbase + stride * n`. -/
theorem regAt_window {s : State} {regbase : Word} {stride count n : Nat} (ht : s.transport = .mapped regbase stride count)
    (hstride : 0 < stride) (hn : n < count) (hlt : stride * n < 2 ^ 64) :
    s.regAt (regbase + BitVec.ofNat 64 (stride * n)) = some n := by
  have hoff : (regbase + BitVec.ofNat 64 (stride * n) - regbase).toNat = stride * n := by
    rw [BitVec.add_comm, BitVec.add_sub_cancel, BitVec.toNat_ofNat, Nat.mod_eq_of_lt hlt]
  have hdiv : stride * n / stride = n := Nat.mul_div_cancel_left n hstride
  simp only [State.regAt, ht, hoff, hdiv, Nat.mul_mod_right]
  exact if_pos ⟨hstride.ne', trivial, hn⟩

theorem busRead_of_regAt {s : State} {a : Word} {n : Nat} (h : s.regAt a = some n) :
    s.busRead a = { s with busData := regBytes s.byteOrder (s.readReg n) } := by
  rw [State.busRead, h]

/-- Settles O8: a read by number answers `readReg`, and a bus read that reaches the number answers its bytes. -/
theorem hostReadsRegisters : Obligations.HostReadsRegisters := by
  refine ⟨fun s n rest hp => ?byNumber, fun s regbase stride count n => regAt_window, fun s a n rest hp hreg => ?overBus⟩
  case byNumber =>
    refine ⟨s.readReg n, step_rd hp, fun h => readReg_eq_zero s (.inl h), ?_, ?_, ?_,
      fun h h' => readReg_eq_zero s (.inr (.inl ⟨h, h'⟩)), ?_, fun h => readReg_eq_zero s (.inr (.inr h))⟩
    · rintro rfl; exact readReg_status s
    · rintro rfl; exact toNat_readReg_fill s
    · rintro rfl; exact readReg_blkcnt s
    · rintro i rfl; exact readReg_operand s i
  case overBus =>
    have hbus : ({ s with pending := rest } : State).busRead a
        = { s with pending := rest, busData := regBytes s.byteOrder (s.readReg n) } := busRead_of_regAt hreg
    exact ⟨s.readReg n, regBytes s.byteOrder (s.readReg n), step_rd (s := { s with pending := .rd n :: rest }) rfl,
      (step_cons hp).trans (congrArg Host.Outcome.next hbus), get_regBytes _ _⟩

/-! ### Writing the registers (R34, R37) -/

/-- A write of number 8 + i sets x[i], and no other write sets it. -/
theorem x_writeReg (s : State) (n : Nat) (v : Word) (i : Fin 9) :
    (s.writeReg n v).x[i] = if n = 8 + i.val then v else s.x[i] := by
  rw [State.writeReg]
  split
  · have hi : n - 8 = i.val ↔ n = 8 + i.val := by omega
    simp only [Fin.getElem_fin, Vector.getElem_set, hi]
  · rw [if_neg (by omega)]

/-- A write of a register other than CMD changes operand registers only. -/
theorem writeReg_frame (s : State) (n : Nat) (v : Word) : s.writeReg n v = { s with x := (s.writeReg n v).x } := by
  rw [State.writeReg]
  split <;> rfl

theorem registerWrite_of_ne_zero {n : Nat} (h : n ≠ 0) (v : Word) (s : State) :
    registerWrite n v s = .next (s.writeReg n v) := if_neg h

/-- A bus write of a value's bytes where register number n is reached writes the value to number n. -/
theorem take_busWr_of_regAt {s : State} {a : Word} {n : Nat} (h : s.regAt a = some n) (v : Word) :
    take (.busWr a (regBytes s.byteOrder v)) s = take (.wr n v) s := by
  simp only [take, h, regValue_regBytes]

theorem take_busWr_of_regAt_none {s : State} {a : Word} (h : s.regAt a = none) (bytes : Vector Byte 8) :
    take (.busWr a bytes) s = .next s := by
  simp only [take, h]

/-- Settles O9: a write by number is `writeReg`, and a bus write is the write by number whose value its bytes stand for. -/
theorem hostWritesRegisters : Obligations.HostWritesRegisters := by
  refine ⟨fun s n v rest hp hn => ?byNumber, fun s a bytes n v rest hp hreg hbytes => ?overBus,
    fun s a bytes rest hp hreg => (step_cons hp).trans (take_busWr_of_regAt_none (s := { s with pending := rest }) hreg bytes)⟩
  case byNumber =>
    exact ⟨_, (step_cons hp).trans (registerWrite_of_ne_zero hn v _), x_writeReg _ n v, writeReg_frame _ n v⟩
  case overBus =>
    rw [eq_regBytes hbytes] at hp
    exact (step_cons hp).trans (take_busWr_of_regAt (s := { s with pending := rest }) hreg v)

/-! ### The S-box (R105)

The field inverse of a byte is read back off the table by undoing the affine map of R105's formula. So the table, and not a
computed power, gives the inverse, and one multiplication per byte confirms it. -/

/-- The affine map of R105's formula, which follows the field inversion. -/
def affineMap (y : Byte) : Byte :=
  y ^^^ y.rotateLeft 1 ^^^ y.rotateLeft 2 ^^^ y.rotateLeft 3 ^^^ y.rotateLeft 4 ^^^ 0x63#8

/-- The inverse of the affine map. -/
def affineInverse (b : Byte) : Byte := b.rotateLeft 1 ^^^ b.rotateLeft 3 ^^^ b.rotateLeft 6 ^^^ 0x05#8

theorem affineMap_affineInverse : ∀ b : Byte, affineMap (affineInverse b) = b := by decide +kernel

/-- The field inverse of `a` as the table holds it: the affine map undone on SBOX[a]. -/
def tableInverse (a : Byte) : Byte := affineInverse (sbox a)

theorem affineMap_tableInverse (a : Byte) : affineMap (tableInverse a) = sbox a := affineMap_affineInverse (sbox a)

theorem gmul_tableInverse : ∀ a : Byte, a ≠ 0#8 → gmul a (tableInverse a) = 1#8 := by decide +kernel

theorem tableInverse_zero : tableInverse 0#8 = 0#8 := by decide

theorem tableInverse_tableInverse : ∀ a : Byte, tableInverse (tableInverse a) = a := by decide +kernel

/-- Every byte stands in the table: inversion and the affine map can both be undone. -/
theorem sbox_tableInverse_affineInverse (b : Byte) : sbox (tableInverse (affineInverse b)) = b := by
  rw [← affineMap_tableInverse, tableInverse_tableInverse, affineMap_affineInverse]

theorem sbox_ne_self : ∀ a : Byte, sbox a ≠ a := by decide +kernel

/-- Settles O28: the formula holds of the inverse read off the table, which is the field inverse. -/
theorem sboxTableIsFormula : Obligations.SboxTableIsFormula := by
  refine ⟨fun a => ⟨tableInverse a, gmul_tableInverse a, ?_, (affineMap_tableInverse a).symm⟩, sbox_ne_self,
    fun b => ⟨tableInverse (affineInverse b), sbox_tableInverse_affineInverse b⟩, by decide, by decide⟩
  rintro rfl
  exact tableInverse_zero

/-! ### Lanes (R16) -/

/-- Every lane of `F S` is one function of that lane's matrix in `S`. -/
def LaneWise (F : TState → TState) : Prop :=
  ∃ f : (Fin 8 → Fin 8 → Byte) → Fin 8 → Fin 8 → Byte,
    ∀ (S : TState) (l : Lane) (r c : Fin 8), (F S).at l r c = f (S.at l) r c

/-- A lane, as a block, is made of its matrix. -/
theorem laneOf_eq_ofElems (S : TState) (l : Lane) : laneOf S l = ofElems (S.at l) :=
  block_ext fun r c => by rw [elem_laneOf, elem_ofElems]

/-- A function that does one and the same function of blocks in every lane is lane-wise. -/
theorem laneWise_of_laneOf {F : TState → TState} (F1 : Block → Block) (h : ∀ S l, laneOf (F S) l = F1 (laneOf S l)) :
    LaneWise F :=
  ⟨fun A => elem (F1 (ofElems A)), fun S l r c => by rw [← elem_laneOf, h, laneOf_eq_ofElems]⟩

theorem laneWise_arcP (i : Nat) : LaneWise fun S => arcP S i := laneWise_of_laneOf (arcP1 · i) fun S l => laneOf_arcP S i l

theorem laneWise_arcQ (i : Nat) : LaneWise fun S => arcQ S i := laneWise_of_laneOf (arcQ1 · i) fun S l => laneOf_arcQ S i l

/-- Settles O40: one lane of each function is the single-lane function of R172 on that lane. -/
theorem lanesAreIndependent : Obligations.LanesAreIndependent := by
  refine ⟨?listed, fun i => ?everyRound, fun A B => elem (compress1 (ofElems A) (ofElems B)), fun h m l r c => ?compress⟩
  case listed =>
    simp only [List.forall_mem_cons]
    exact ⟨laneWise_arcP 0, laneWise_arcQ 9, laneWise_of_laneOf _ laneOf_subBytes,
      laneWise_of_laneOf _ (laneOf_shiftBytes sigmaP), laneWise_of_laneOf _ (laneOf_shiftBytes sigmaQ),
      laneWise_of_laneOf _ laneOf_mixBytes, laneWise_of_laneOf _ laneOf_permP, laneWise_of_laneOf _ laneOf_permQ,
      laneWise_of_laneOf _ laneOf_outX, List.forall_mem_nil _⟩
  case everyRound =>
    obtain ⟨f, hf⟩ := laneWise_arcP i
    obtain ⟨g, hg⟩ := laneWise_arcQ i
    exact ⟨f, g, fun S l r c => ⟨hf S l r c, hg S l r c⟩⟩
  case compress => rw [← elem_laneOf, laneOf_compress, laneOf_eq_ofElems, laneOf_eq_ofElems]

end Sys2Proof.Proofs
end

section
/-! SUPPORT. What each command can do, said once: nothing on a faulted engine (R186), and otherwise one of the outcomes that
the command's rule lists. -/

namespace Sys2Proof.Laws

open Sys2Proof.Machine

/-! ### A faulted engine (R186) -/

theorem illegalCommand_none {s : State} (h : s.fault = .none) : illegalCommand s = .next { s with fault := .illegal } :=
  running_none h _

theorem withRound_faulted {s : State} (h : s.fault ≠ .none) (rnd : BitVec 4) {k : Result} (hk : k = .next s) :
    withRound rnd s k = .next s := by
  rw [withRound]
  split
  · exact hk
  · exact running_faulted h _

/-- On a faulted engine a command has no effect at all. -/
theorem exec_faulted {s : State} (h : s.fault ≠ .none) (i : Instr) : exec i s = .next s := by
  cases i with
  | arcp | arcq => exact withRound_faulted h _ (running_faulted h _)
  | reset | update | final | finalr | digest | pack | unpack | subb | shbp | shbq | mixb | xors | permp | permq | cmpr | outx =>
    exact running_faulted h _

/-! ### The shared shapes -/

/-- A command whose one check is admission (R54). -/
theorem admitted_cases {q : Prop} [Decidable q] {a b t : State}
    (h : (if q then .next a else .next b : Result) = .next t) : (q ∧ t = a) ∨ (¬q ∧ t = b) := by
  split at h <;> cases h
  · exact .inl ⟨‹_›, rfl⟩
  · exact .inr ⟨‹_›, rfl⟩

/-- A command with a contract check before admission (R187). -/
theorem checked_cases {p q : Prop} [Decidable p] [Decidable q] {e : FaultCode} {s a b t : State}
    (h : (if p then raise e s else if q then .next a else .next b) = .next t) :
    (p ∧ t = { s with fault := e }) ∨ (¬p ∧ q ∧ t = a) ∨ (¬p ∧ ¬q ∧ t = b) := by
  by_cases hp : p
  · rw [if_pos hp] at h
    cases h
    exact .inl ⟨hp, rfl⟩
  · rw [if_neg hp] at h
    exact .inr ((admitted_cases h).imp (.intro hp) (.intro hp))

/-- A command with a result in TS[d]. -/
theorem toTs_eq {s t : State} {d : TsReg} {S : TState} (hf : s.fault = .none) (h : toTs d S s = .next t) :
    t = s.setTs d S := by
  rw [toTs_none hf] at h
  cases h
  rfl

/-- A command with a round index and a result in TS[d] (R75, R77). -/
theorem withRound_toTs_cases {s t : State} {rnd : BitVec 4} {d : TsReg} {S : TState} (hf : s.fault = .none)
    (h : withRound rnd s (toTs d S s) = .next t) :
    (legalRound rnd = true ∧ t = s.setTs d S) ∨ (legalRound rnd = false ∧ t = { s with fault := .illegal }) := by
  rw [withRound, toTs_none hf, illegalCommand_none hf] at h
  simpa only [Bool.not_eq_true] using admitted_cases h

/-! ### The outcomes of each command on an engine without a fault -/

section
variable {s t : State} (hf : s.fault = .none)
include hf

theorem execReset_eq (h : execReset s = .next t) : t = s.instReset := by
  rw [execReset, running_none hf] at h
  cases h
  rfl

/-- UPDATE (R143, R144, R183, R185 b). -/
theorem execUpdate_cases (h : execUpdate s = .next t) :
    (s.fin = true ∧ t = { s with fault := .phase }) ∨
    (s.fin = false ∧ s.lengths = .unequal ∧ t = { s with fault := .len }) ∨
    (s.fin = false ∧ s.lengths = .allZero ∧ t = s) ∨
    ∃ n, s.fin = false ∧ s.lengths = .common n ∧
      ((s.canAbsorb = true ∧ t = s.markAbsent.absorb n.toNat) ∨ (s.canAbsorb = false ∧ t = updateBus n.toNat s)) := by
  rw [execUpdate, running_none hf] at h
  by_cases hfin : s.fin = true
  · rw [if_pos hfin] at h
    cases h
    exact .inl ⟨hfin, rfl⟩
  rw [if_neg hfin] at h
  rw [Bool.not_eq_true] at hfin
  split at h
  next hlen =>
    cases h
    exact .inr (.inl ⟨hfin, hlen, rfl⟩)
  next hlen =>
    cases h
    exact .inr (.inr (.inl ⟨hfin, hlen, rfl⟩))
  next n hlen =>
    have hbytes := admitted_cases h
    rw [Bool.not_eq_true] at hbytes
    exact .inr (.inr (.inr ⟨n, hfin, hlen, hbytes⟩))

/-- FINAL (R151). -/
theorem execFinal_cases (h : execFinal s = .next t) :
    (s.fin = true ∧ t = { s with fault := .phase }) ∨
    (s.fin = false ∧ s.canWrite s.dst 128 = true ∧ t = { s.finalizeAndStore with fin := true }) ∨
    (s.fin = false ∧ s.canWrite s.dst 128 = false ∧ t = hasherBus s.digestStores s) := by
  rw [execFinal, running_none hf] at h
  simpa only [Bool.not_eq_true] using checked_cases h

/-- FINALR (R152). -/
theorem execFinalr_cases (h : execFinalr s = .next t) :
    (s.fin = true ∧ t = { s with fault := .phase }) ∨
    (s.fin = false ∧ s.canWrite s.dst 128 = true ∧ t = s.finalizeAndStore.instReset) ∨
    (s.fin = false ∧ s.canWrite s.dst 128 = false ∧ t = hasherBus s.digestStores s) := by
  rw [execFinalr, running_none hf] at h
  simpa only [Bool.not_eq_true] using checked_cases h

/-- DIGEST (R153). -/
theorem execDigest_cases (h : execDigest s = .next t) :
    (s.lengths = .unequal ∧ t = { s with fault := .len }) ∨
    (s.lengths ≠ .unequal ∧ (s.canAbsorb && s.canWrite s.dst 128) = true ∧ t = s.hashed.finalizeAndStore.instReset) ∨
    (s.lengths ≠ .unequal ∧ (s.canAbsorb && s.canWrite s.dst 128) = false ∧ t = hasherBus s.digestBrokenStores s) := by
  rw [execDigest, running_none hf] at h
  simpa only [Bool.not_eq_true] using checked_cases h

/-- PACK (R94). -/
theorem execPack_cases {d : TsReg} (h : execPack d s = .next t) :
    (s.canPack = true ∧ t = s.setTs d (pack s.packSource)) ∨ (s.canPack = false ∧ t = packBus d s) := by
  rw [execPack, running_none hf] at h
  simpa only [Bool.not_eq_true] using admitted_cases h

/-- UNPACK (R95). -/
theorem execUnpack_cases {k : TsReg} (h : execUnpack k s = .next t) :
    (s.canWrite s.dst 256 = true ∧ t = { s with mem := storeAll s.mem (s.unpackStores k) }) ∨
    (s.canWrite s.dst 256 = false ∧ t = { s.breakOff (s.unpackStores k) with fault := .bus }) := by
  rw [execUnpack, running_none hf] at h
  simpa only [Bool.not_eq_true] using admitted_cases h

end

/-! ### A write to CMD (R76, R77) -/

theorem writeCmd_of_ok {v : Word} {i : Instr} (h : decode v = .ok i) (s : State) : writeCmd v s = exec i s := by
  rw [writeCmd, h]

theorem writeCmd_of_ne_ok {v : Word} (h : ∀ i, decode v ≠ .ok i) (s : State) : writeCmd v s = illegalCommand s := by
  rw [writeCmd]
  cases hv : decode v with
  | ok i => exact absurd hv (h i)
  | error => rfl

end Sys2Proof.Laws
end

section
/-! PROOFS. The statements about the state: STATUS and its phase bits (R30, R33), the reset values (R42), what is run when CMD is
written (R35, R76), the operand registers (R34) and LSKIP (R31). -/

namespace Sys2Proof.Proofs

open Sys2Proof.Machine Sys2Proof.Laws

/-! ### STATUS (R30, R33) -/

/-- STATUS bit by bit. -/
theorem getLsbD_status (s : State) (k : Nat) :
    s.status.getLsbD k =
      if k < 4 then (faultCode s.fault).getLsbD k
      else if k = 4 then s.fin
      else if k = 5 then s.isEmpty
      else if k = 6 then s.isBuffering
      else if k = 7 then false
      else s.lskip.getLsbD (k - 8) := by
  have hbit : ∀ (b : Bool) (n : Nat), (BitVec.ofBool b).getLsbD n = (decide (n = 0) && b) := fun b n => by
    cases n <;> simp
  simp only [State.status, BitVec.getLsbD_or, BitVec.getLsbD_shiftLeft, BitVec.getLsbD_setWidth, hbit]
  by_cases hk : k < 12
  · interval_cases k <;> simp
  · have hfault : (faultCode s.fault).getLsbD k = false := BitVec.getLsbD_of_ge _ _ (by omega)
    have hlskip : s.lskip.getLsbD (k - 8) = false := BitVec.getLsbD_of_ge _ _ (by omega)
    have hfin : k - 4 ≠ 0 ∧ k - 5 ≠ 0 ∧ k - 6 ≠ 0 ∧ k ≠ 4 ∧ k ≠ 5 ∧ k ≠ 6 := by omega
    simp [hfault, hlskip, hfin]

/-- Above bit 7 stand the bits of LSKIP, and zeros above them. -/
theorem getLsbD_status_high (s : State) (i : Nat) : s.status.getLsbD (8 + i) = s.lskip.getLsbD i := by
  rw [getLsbD_status, if_neg (by omega), if_neg (by omega), if_neg (by omega), if_neg (by omega), if_neg (by omega),
    Nat.add_sub_cancel_left]

/-- The field of STATUS at bit `lo`, whose bits STATUS repeats. -/
theorem extractLsb'_status {s : State} {lo w : Nat} {v : BitVec w}
    (h : ∀ i < w, s.status.getLsbD (lo + i) = v.getLsbD i) : s.status.extractLsb' lo w = v := by
  refine BitVec.eq_of_getLsbD_eq fun i hi => ?_
  rw [BitVec.getLsbD_extractLsb', decide_eq_true hi, Bool.true_and, h i hi]

theorem isEmpty_iff (s : State) : s.isEmpty = true ↔ s.fin = false ∧ s.fill = 0 ∧ s.blkcnt = 0#64 := by
  simp only [State.isEmpty, Bool.and_eq_true, Bool.not_eq_true', decide_eq_true_eq, and_assoc]

theorem isBuffering_iff (s : State) : s.isBuffering = true ↔ s.fin = false ∧ s.isEmpty = false := by
  simp only [State.isBuffering, Bool.and_eq_true, Bool.not_eq_true']

/-- An engine is in exactly one of its three phases. -/
theorem count_phases (s : State) : [s.fin, s.isEmpty, s.isBuffering].count true = 1 := by
  rw [State.isBuffering]
  cases hempty : s.isEmpty with
  | true =>
    obtain ⟨hfin, -, -⟩ := (isEmpty_iff s).mp hempty
    rw [hfin]
    rfl
  | false => cases s.fin <;> rfl

/-- Settles O10: each field is read off the bits of STATUS, and the phases exclude each other. -/
theorem statusFields : Obligations.StatusFields := by
  intro s
  have hfin : s.status.getLsbD 4 = s.fin := getLsbD_status s 4
  have hempty : s.status.getLsbD 5 = s.isEmpty := getLsbD_status s 5
  have hbuffering : s.status.getLsbD 6 = s.isBuffering := getLsbD_status s 6
  rw [hfin, hempty, hbuffering]
  refine ⟨extractLsb'_status fun i hi => ?fault, rfl, isEmpty_iff s, isBuffering_iff s, getLsbD_status s 7,
    extractLsb'_status fun i hi => ?lskip, extractLsb'_status fun i hi => ?high, count_phases s⟩
  case fault => rw [Nat.zero_add, getLsbD_status, if_pos hi]
  case lskip => exact getLsbD_status_high s i
  case high =>
    rw [show 12 + i = 8 + (4 + i) by omega, getLsbD_status_high, BitVec.getLsbD_of_ge _ _ (by omega), BitVec.getLsbD_zero]

/-! ### The reset values (R42) -/

theorem freshHasher_instReset (s : State) : FreshHasher s.instReset :=
  ⟨tsReg_instReset s 0, bufRow_instReset s, rfl, rfl, rfl, rfl⟩

/-- `InstReset` finds nothing to do right after hardware reset. -/
theorem instReset_reset : State.reset.instReset = State.reset := rfl

/-- STATUS of a fresh hasher on an engine without a fault: EMPTY alone. -/
theorem status_of_freshHasher {s : State} (h : FreshHasher s) (hf : s.fault = .none) : s.status = 0x20#64 := by
  obtain ⟨-, -, hfill, hblkcnt, hfin, hlskip⟩ := h
  simp only [State.status, State.isBuffering, State.isEmpty, hfill, hblkcnt, hfin, hlskip, hf]
  decide

/-- Settles O12: both resets leave a fresh hasher, and `InstReset` leaves the rest. -/
theorem resetValues : Obligations.ResetValues := by
  have hreset : FreshHasher State.reset := instReset_reset ▸ freshHasher_instReset State.reset
  refine ⟨hreset, rfl, status_of_freshHasher hreset rfl, at_iv, fun s => ?_⟩
  have hts : SameTsBut 0 s s.instReset := fun k hk => by rw [tsReg_instReset, if_neg hk]
  exact ⟨freshHasher_instReset s, hts, rfl, rfl, rfl, status_of_freshHasher (freshHasher_instReset s)⟩

/-! ### A write to CMD (R35, R76, R77) -/

theorem step_wr_cmd {s : State} {v : Word} {rest : List Access} (h : s.pending = .wr 0 v :: rest) :
    step s = writeCmd v { s with pending := rest } := step_cons h

/-- Settles O6: the step is `writeCmd`, which follows the decoder. -/
theorem stepRunsDecodedCommand : Obligations.StepRunsDecodedCommand := fun s v rest hp => by
  rw [step_wr_cmd hp]
  exact ⟨rfl, fun i hv => writeCmd_of_ok hv _, fun hf hv => (writeCmd_of_ne_ok hv _).trans (illegalCommand_none hf)⟩

/-! ### What no command touches (R34) -/

theorem sameSurroundings_absorb (s : State) (len : Nat) : SameSurroundings s (s.absorb len) := by
  obtain ⟨-, -, -, -, hsame, -, -⟩ := absorb_frame s len
  exact hsame

theorem sameSurroundings_hashed (s : State) : SameSurroundings s s.hashed := by
  obtain ⟨-, -, -, hsame, -, -⟩ := hashed_frame s
  exact hsame

/-- No outcome writes the surroundings: by `rfl` for every one but those that absorb. -/
theorem sameSurroundings_exec {s t : State} {i : Instr} (h : exec i s = .next t) : SameSurroundings s t := by
  have same := sameSurroundings_refl s
  obtain hf | hf := ne_or_eq s.fault .none
  · rw [exec_faulted hf] at h
    cases h
    exact same
  cases i with
  | reset => exact execReset_eq hf h ▸ same
  | update =>
    obtain ⟨-, rfl⟩ | ⟨-, -, rfl⟩ | ⟨-, -, rfl⟩ | ⟨n, -, -, ⟨-, rfl⟩ | ⟨-, rfl⟩⟩ := execUpdate_cases hf h
    · exact same
    · exact same
    · exact same
    · exact sameSurroundings_absorb s.markAbsent n.toNat
    · exact same
  | final => obtain ⟨-, rfl⟩ | ⟨-, -, rfl⟩ | ⟨-, -, rfl⟩ := execFinal_cases hf h <;> exact same
  | finalr => obtain ⟨-, rfl⟩ | ⟨-, -, rfl⟩ | ⟨-, -, rfl⟩ := execFinalr_cases hf h <;> exact same
  | digest =>
    obtain ⟨-, rfl⟩ | ⟨-, -, rfl⟩ | ⟨-, -, rfl⟩ := execDigest_cases hf h
    · exact same
    · exact sameSurroundings_hashed s
    · exact same
  | pack => obtain ⟨-, rfl⟩ | ⟨-, rfl⟩ := execPack_cases hf h <;> exact same
  | unpack => obtain ⟨-, rfl⟩ | ⟨-, rfl⟩ := execUnpack_cases hf h <;> exact same
  | arcp | arcq => obtain ⟨-, rfl⟩ | ⟨-, rfl⟩ := withRound_toTs_cases hf h <;> exact same
  | subb | shbp | shbq | mixb | xors | permp | permq | cmpr | outx => exact toTs_eq hf h ▸ same

/-- Settles O54: every outcome of every command keeps the surroundings. -/
theorem noCommandWritesOperandRegisters : Obligations.NoCommandWritesOperandRegisters := fun _ _ _ h =>
  sameSurroundings_exec h

/-! ### LSKIP (R31, R141, R143) -/

/-- The mask of absent lanes added by `markAbsent` stays while data is absorbed. -/
theorem getLsbD_lskip_absorb_markAbsent (s : State) (len : Nat) (l : Lane) :
    (s.markAbsent.absorb len).lskip.getLsbD l.val = (s.lskip.getLsbD l.val || !s.active l) := by
  obtain ⟨-, -, hlskip, -⟩ := absorb_frame s.markAbsent len
  rw [hlskip, lskip_markAbsent, BitVec.getLsbD_or, getLsbD_absentLanes]

section
variable {s t : State} (hf : s.fault = .none)
include hf

/-- What a reset of the hasher at a command's end leaves in LSKIP. -/
theorem lskip_of_resetting {i : Instr} (hi : i ∈ [Instr.reset, .finalr, .digest]) (h : exec i s = .next t)
    (ht : t.fault = .none) : t.lskip = 0#4 := by
  simp only [List.mem_cons, List.not_mem_nil, or_false] at hi
  obtain rfl | rfl | rfl := hi
  · rw [execReset_eq hf h, lskip_instReset]
  · obtain ⟨-, rfl⟩ | ⟨-, -, rfl⟩ | ⟨-, -, rfl⟩ := execFinalr_cases hf h
    · cases ht
    · rfl
    · cases ht
  · obtain ⟨-, rfl⟩ | ⟨-, -, rfl⟩ | ⟨-, -, rfl⟩ := execDigest_cases hf h
    · cases ht
    · rfl
    · cases ht

/-- UPDATE adds the absent lanes when there is data, and does nothing when there is none. -/
theorem lskip_update (h : exec .update s = .next t) (ht : t.fault = .none) (l : Lane) :
    t.lskip.getLsbD l.val = (s.lskip.getLsbD l.val || (!s.active l && decide (∃ j, s.active j = true))) := by
  obtain ⟨-, rfl⟩ | ⟨-, -, rfl⟩ | ⟨-, hlen, rfl⟩ | ⟨n, -, hlen, ⟨-, rfl⟩ | ⟨-, rfl⟩⟩ := execUpdate_cases hf h
  · cases ht
  · cases ht
  · have hnone : ¬ ∃ j, t.active j = true := fun ⟨j, hj⟩ => (active_iff t j).mp hj ((lengths_allZero_iff t).mp hlen j)
    rw [decide_eq_false hnone, Bool.and_false, Bool.or_false]
  · have hdata : ∃ j, s.active j = true := ((lengths_common_iff s n).mp hlen).1
    rw [getLsbD_lskip_absorb_markAbsent, decide_eq_true hdata, Bool.and_true]
  · cases ht

/-- A command that neither resets the hasher nor absorbs leaves LSKIP. -/
theorem lskip_of_not_mem {i : Instr} (hi : i ∉ [Instr.reset, .finalr, .digest, .update]) (h : exec i s = .next t)
    (ht : t.fault = .none) : t.lskip = s.lskip := by
  cases i with
  | reset | update | finalr | digest => simp at hi
  | final =>
    obtain ⟨-, rfl⟩ | ⟨-, -, rfl⟩ | ⟨-, -, rfl⟩ := execFinal_cases hf h
    · rfl
    · rfl
    · cases ht
  | pack => obtain ⟨-, rfl⟩ | ⟨-, rfl⟩ := execPack_cases hf h <;> rfl
  | unpack => obtain ⟨-, rfl⟩ | ⟨-, rfl⟩ := execUnpack_cases hf h <;> rfl
  | arcp | arcq => obtain ⟨-, rfl⟩ | ⟨-, rfl⟩ := withRound_toTs_cases hf h <;> rfl
  | subb | shbp | shbq | mixb | xors | permp | permq | cmpr | outx => rw [toTs_eq hf h, lskip_setTs]

end

/-- Settles O57: one lemma for each of the three classes of commands. -/
theorem lskipDiscipline : Obligations.LskipDiscipline := fun _ _ _ hf h ht =>
  ⟨fun hi => lskip_of_resetting hf hi h ht, fun hi => lskip_update hf (hi ▸ h) ht, fun hi => lskip_of_not_mem hf hi h ht⟩

end Sys2Proof.Proofs
end

section
/-! SUPPORT. Data memory across a command: the stores a command may do (R57) and where they lie, and admission byte by byte for
PACK and UNPACK (R54). -/

namespace Sys2Proof.Laws

open Sys2Proof.Machine

/-- The byte at offset 0 is the byte at the address itself (R51). -/
theorem readAt_zero (m : List Host.Cell) (a : Word) : readAt m a 0 = Memory.read m a.toNat := by
  rw [readAt, BitVec.add_zero]

/-! ### Where a command's stores lie (R57) -/

/-- Every store of a run goes to a byte of the run's range (R52). -/
theorem address_ne_of_outside {addr : Word} {bytes : List Byte} {a : Nat} (ha : outside addr bytes.length a) :
    ∀ c ∈ storesAt addr bytes, c.1.toNat ≠ a := by
  intro c hc
  obtain ⟨i, hi, rfl⟩ := mem_storesAt hc
  exact ha i hi

theorem dst_hashed (s : State) : s.hashed.dst = s.dst := by
  obtain ⟨-, -, -, ⟨hx, -⟩, -⟩ := hashed_frame s
  rw [State.dst, State.dst, hx]

theorem digestStores_hashed (s : State) :
    s.hashed.digestStores = storesAt s.dst (digestBytes s.hashed.finalState) := by
  rw [State.digestStores, dst_hashed]

/-- The stores of a DIGEST, whatever bytes they carry, are a run of 128 bytes at DST. -/
theorem digestBrokenStores_eq_storesAt (s : State) :
    ∃ bytes : List Byte, bytes.length = 128 ∧ s.digestBrokenStores = storesAt s.dst bytes := by
  rw [State.digestBrokenStores]
  split
  · exact ⟨_, length_digestBytes _, digestStores_hashed s⟩
  · exact ⟨_, by rw [List.length_map, List.length_range], rfl⟩

theorem digestStores_address_ne {s : State} {a : Nat} (ha : outside s.dst 128 a) :
    ∀ c ∈ s.digestStores, c.1.toNat ≠ a :=
  address_ne_of_outside (by rwa [length_digestBytes])

theorem digestBrokenStores_address_ne {s : State} {a : Nat} (ha : outside s.dst 128 a) :
    ∀ c ∈ s.digestBrokenStores, c.1.toNat ≠ a := by
  obtain ⟨bytes, hlen, hstores⟩ := digestBrokenStores_eq_storesAt s
  rw [hstores]
  exact address_ne_of_outside (by rwa [hlen])

/-- The stores of FINAL, FINALR and DIGEST go to the 128 bytes at DST. -/
theorem storesOf_digesting_address_ne {i : Instr} (hi : i ∈ [Instr.final, .finalr, .digest]) {s : State} {a : Nat}
    (ha : outside s.dst 128 a) : ∀ c ∈ storesOf i s, c.1.toNat ≠ a := by
  have hnil : ∀ c ∈ ([] : List (Word × Byte)), c.1.toNat ≠ a := List.forall_mem_nil _
  simp only [List.mem_cons, List.not_mem_nil, or_false] at hi
  obtain rfl | rfl | rfl := hi <;> rw [storesOf] <;> split
  case isTrue | isTrue | isTrue => exact hnil
  case isFalse | isFalse => exact digestStores_address_ne ha
  case isFalse => exact digestBrokenStores_address_ne ha

/-- The stores of UNPACK go to the 256 bytes at DST. -/
theorem storesOf_unpack_address_ne {k : TsReg} {s : State} {a : Nat} (ha : outside s.dst 256 a) :
    ∀ c ∈ storesOf (.unpack k) s, c.1.toNat ≠ a :=
  address_ne_of_outside (by rwa [length_unpackBytes])

/-- No other command has a store. -/
theorem storesOf_eq_nil {i : Instr} (hunpack : ∀ k, i ≠ .unpack k) (hi : i ∉ [Instr.final, .finalr, .digest]) (s : State) :
    storesOf i s = [] := by
  cases i with
  | unpack k => exact absurd rfl (hunpack k)
  | final | finalr | digest => simp at hi
  | _ => rfl

/-! ### What a command leaves in memory -/

theorem storesOf_final {s : State} (hfin : s.fin = false) : storesOf .final s = s.digestStores := if_neg (by simp [hfin])

theorem storesOf_finalr {s : State} (hfin : s.fin = false) : storesOf .finalr s = s.digestStores := if_neg (by simp [hfin])

theorem storesOf_unpack (k : TsReg) (s : State) : storesOf (.unpack k) s = s.unpackStores k := rfl

theorem storesOf_digest {s : State} (hlen : s.lengths ≠ .unequal) : storesOf .digest s = s.digestBrokenStores := if_neg hlen

/-- A command stores nothing, all its stores, or a free subset of the admitted ones. -/
theorem mem_exec_cases {s t : State} {i : Instr} (h : exec i s = .next t) :
    t.mem = s.mem ∨ t.mem = storeAll s.mem (storesOf i s) ∨ t.mem = s.storeTaken s.draws 0 s.mem (storesOf i s) := by
  obtain hf | hf := ne_or_eq s.fault .none
  · rw [exec_faulted hf] at h
    cases h
    exact .inl rfl
  cases i with
  | reset => exact .inl (execReset_eq hf h ▸ mem_instReset s)
  | update =>
    obtain ⟨-, rfl⟩ | ⟨-, -, rfl⟩ | ⟨-, -, rfl⟩ | ⟨n, -, -, ⟨-, rfl⟩ | ⟨-, rfl⟩⟩ := execUpdate_cases hf h
    · exact .inl rfl
    · exact .inl rfl
    · exact .inl rfl
    · obtain ⟨-, -, -, -, -, -, hmem⟩ := absorb_frame s.markAbsent n.toNat
      exact .inl hmem
    · exact .inl rfl
  | final =>
    obtain ⟨-, rfl⟩ | ⟨hfin, -, rfl⟩ | ⟨hfin, -, rfl⟩ := execFinal_cases hf h
    · exact .inl rfl
    · exact .inr (.inl (storesOf_final hfin ▸ mem_finalizeAndStore s))
    · exact .inr (.inr (storesOf_final hfin ▸ mem_breakOff s _))
  | finalr =>
    obtain ⟨-, rfl⟩ | ⟨hfin, -, rfl⟩ | ⟨hfin, -, rfl⟩ := execFinalr_cases hf h
    · exact .inl rfl
    · exact .inr (.inl (storesOf_finalr hfin ▸ mem_finalizeAndStore s))
    · exact .inr (.inr (storesOf_finalr hfin ▸ mem_breakOff s _))
  | digest =>
    obtain ⟨-, rfl⟩ | ⟨hlen, hadmitted, rfl⟩ | ⟨hlen, -, rfl⟩ := execDigest_cases hf h
    · exact .inl rfl
    · obtain ⟨hread, -⟩ := Bool.and_eq_true_iff.mp hadmitted
      obtain ⟨-, -, -, -, -, hmem⟩ := hashed_frame s
      rw [mem_instReset, mem_finalizeAndStore, hmem, storesOf_digest hlen, State.digestBrokenStores, if_pos hread]
      exact .inr (.inl rfl)
    · exact .inr (.inr (storesOf_digest hlen ▸ mem_breakOff s _))
  | pack => obtain ⟨-, rfl⟩ | ⟨-, rfl⟩ := execPack_cases hf h <;> exact .inl rfl
  | unpack =>
    rw [storesOf_unpack]
    obtain ⟨-, rfl⟩ | ⟨-, rfl⟩ := execUnpack_cases hf h
    · exact .inr (.inl (by simp only))
    · exact .inr (.inr (by simp only [mem_breakOff]))
  | arcp | arcq => obtain ⟨-, rfl⟩ | ⟨-, rfl⟩ := withRound_toTs_cases hf h <;> exact .inl rfl
  | subb | shbp | shbq | mixb | xors | permp | permq | cmpr | outx => exact .inl (toTs_eq hf h ▸ mem_setTs s _ _)

/-- A command, completing or faulting, leaves every byte that none of its stores names. -/
theorem read_exec_of_forall_ne {s t : State} {i : Instr} (h : exec i s = .next t) {a : Nat}
    (ha : ∀ c ∈ storesOf i s, c.1.toNat ≠ a) : Memory.read t.mem a = Memory.read s.mem a := by
  obtain hmem | hmem | hmem := mem_exec_cases h <;> rw [hmem]
  · exact read_storeAll_of_forall_ne ha
  · obtain hsame | ⟨c, hc, hca, -⟩ := read_storeTaken s s.draws 0 s.mem (storesOf i s) a
    · exact hsame
    · exact absurd hca (ha c hc)

/-! ### Admission of PACK and UNPACK (R54) -/

theorem canPack_eq_false_iff (s : State) :
    s.canPack = false ↔ ∃ (l : Lane) (k : Fin 64), s.readable (s.ptr l + BitVec.ofNat 64 k.val) = false := by
  rw [← Bool.not_eq_true, canPack_iff]
  simp only [not_forall, Bool.not_eq_true]

theorem canWrite_eq_false_iff (s : State) (addr : Word) {n : Nat} (hn : n ≤ addressCount) :
    s.canWrite addr n = false ↔ ∃ i < n, s.writable (addr + BitVec.ofNat 64 i) = false := by
  rw [← Bool.not_eq_true, canWrite_iff s addr hn]
  simp only [not_forall, Bool.not_eq_true, exists_prop]

section
variable {s t : State} {k : TsReg} (hf : s.fault = .none)
include hf

theorem fault_execPack_eq_bus_iff (h : execPack k s = .next t) : t.fault = .bus ↔ s.canPack = false := by
  obtain ⟨hread, rfl⟩ | ⟨hread, rfl⟩ := execPack_cases hf h
  · simp [hf, hread]
  · exact iff_of_true rfl hread

theorem fault_execUnpack_eq_bus_iff (h : execUnpack k s = .next t) : t.fault = .bus ↔ s.canWrite s.dst 256 = false := by
  obtain ⟨hwrite, rfl⟩ | ⟨hwrite, rfl⟩ := execUnpack_cases hf h
  · simp [hf, hwrite]
  · exact iff_of_true rfl hwrite

end

end Sys2Proof.Laws
end

section
/-! PROOFS. The statements about data memory: which commands store (R50, R57), admission byte by byte (R51 to R54), and the host's
own accesses (R50, R61). -/

namespace Sys2Proof.Proofs

open Sys2Proof.Machine Sys2Proof.Laws

/-- Settles O55: a command changes no byte but those its stores name, and these lie at DST. -/
theorem onlyStoringCommandsWriteMemory : Obligations.OnlyStoringCommandsWriteMemory := by
  refine fun i s t h => ⟨?unpack, fun hi a ha => ?digesting, fun hunpack hi a => ?other⟩
  case unpack =>
    rintro ⟨k, rfl⟩ a ha
    exact read_exec_of_forall_ne h (storesOf_unpack_address_ne ha)
  case digesting => exact read_exec_of_forall_ne h (storesOf_digesting_address_ne hi ha)
  case other =>
    refine read_exec_of_forall_ne h ?_
    rw [storesOf_eq_nil hunpack hi]
    exact List.forall_mem_nil _

/-- Settles O56: E_BUS is raised iff the range is refused, which is to say one of its bytes is. -/
theorem admissionByByte : Obligations.AdmissionByByte := by
  have hsize : 256 ≤ addressCount := by unfold addressCount; omega
  exact fun s t k hf =>
    ⟨fun h => (fault_execPack_eq_bus_iff hf h).trans (canPack_eq_false_iff s),
      fun h => (fault_execUnpack_eq_bus_iff hf h).trans (canWrite_eq_false_iff s s.dst hsize)⟩

/-- Settles O58: a store is one write of memory, and a load reads the byte at offset 0. -/
theorem hostMemoryAccess : Obligations.HostMemoryAccess := by
  refine fun s a b rest => ⟨fun hp => ?store, fun hp => ?load⟩
  case store => exact ⟨_, step_cons hp, read_write s.mem a.toNat b, rfl⟩
  case load => rw [step_cons hp, take, readAt_zero]

end Sys2Proof.Proofs
end

section
/-! SUPPORT. The decoder and the encoder are inverse to each other: a command word is its fields (R70, R71, R74), and the opcode
map reads each format (R72, R73) as the encoder writes it. -/

namespace Sys2Proof.Laws

/-! ### A command word and its fields (R70, R71, R74) -/

/-- A value with no reserved bit set is put together from the fields read from it. -/
theorem assemble_fieldsOf {v : Word} (hupper : v.extractLsb' 32 32 = 0#32) (hlow : v.extractLsb' 14 2 = 0#2)
    (hhigh : v.extractLsb' 20 12 = 0#12) :
    assemble (fieldsOf v).op.toNat (fieldsOf v).d (fieldsOf v).s (fieldsOf v).t (fieldsOf v).rnd = v := by
  have hv := v.isLt
  have hupper' := congrArg BitVec.toNat hupper
  have hlow' := congrArg BitVec.toNat hlow
  have hhigh' := congrArg BitVec.toNat hhigh
  apply BitVec.eq_of_toNat_eq
  simp [assemble, fieldsOf, Nat.shiftRight_eq_div_pow] at hupper' hlow' hhigh' ⊢
  omega

/-- A value is put together from fields iff it has no reserved bit set and these are the fields read from it. -/
theorem assemble_eq_iff {op : Nat} (hop : op < 256) (d s t : TsReg) (rnd : BitVec 4) (v : Word) :
    assemble op d s t rnd = v ↔
      v.extractLsb' 32 32 = 0#32 ∧ v.extractLsb' 14 2 = 0#2 ∧ v.extractLsb' 20 12 = 0#12 ∧
        fieldsOf v = ⟨BitVec.ofNat 8 op, d, s, t, rnd⟩ := by
  constructor
  · rintro rfl
    obtain ⟨hupper, hlow, hhigh⟩ := reserved_assemble op hop d s t rnd
    exact ⟨hupper, hlow, hhigh, fieldsOf_assemble op hop d s t rnd⟩
  · rintro ⟨hupper, hlow, hhigh, hfields⟩
    have hv := assemble_fieldsOf hupper hlow hhigh
    rwa [hfields, BitVec.toNat_ofNat, Nat.mod_eq_of_lt hop] at hv

/-! ### Decoding an encoded command -/

/-- The decoder reads a value put together from fields by the opcode map alone (R76). -/
theorem decode_assemble {op : Nat} (hop : op < 256) (d s t : TsReg) (rnd : BitVec 4) :
    decode (assemble op d s t rnd) = (⟨BitVec.ofNat 8 op, d, s, t, rnd⟩ : Fields).command := by
  obtain ⟨hupper, hlow, hhigh⟩ := reserved_assemble op hop d s t rnd
  rw [decode, if_neg (not_not.mpr hupper), if_neg (not_or.mpr ⟨not_not.mpr hlow, not_not.mpr hhigh⟩),
    fieldsOf_assemble op hop]

/-- Every format but FDSR accepts what the encoder writes for it; FDSR asks that RND be legal (R75). -/
theorem decode_encode {i : Instr} (hi : i.wellFormed = true) : decode (encode i) = .ok i := by
  cases i with
  | arcp | arcq => exact (decode_assemble (by decide) _ _ _ _).trans (if_pos hi)
  | reset | update | final | finalr | digest | pack | unpack | subb | shbp | shbq | mixb | xors | permp | permq | cmpr | outx =>
    exact decode_assemble (by decide) _ _ _ _

/-! ### Encoding a decoded command -/

/-- The value decodes past the checks of the reserved bits, so the opcode map names the command (R76). -/
theorem decode_eq_ok {v : Word} {i : Instr} (h : decode v = .ok i) :
    v.extractLsb' 32 32 = 0#32 ∧ v.extractLsb' 14 2 = 0#2 ∧ v.extractLsb' 20 12 = 0#12 ∧ (fieldsOf v).command = .ok i := by
  rw [decode] at h
  split at h
  · cases h
  next hupper =>
    split at h
    · cases h
    next hreserved =>
      obtain ⟨hlow, hhigh⟩ := not_or.mp hreserved
      exact ⟨not_not.mp hupper, not_not.mp hlow, not_not.mp hhigh, h⟩

/-- The command is legal, and its encoding has exactly the fields `f`. -/
def IsCommandOf (f : Fields) (i : Instr) : Prop :=
  i.wellFormed = true ∧ encode i = assemble f.op.toNat f.d f.s f.t f.rnd

/-- A format names a command only after its check. -/
theorem isCommandOf_of_checked {f : Fields} {p : Prop} [Decidable p] {e : Reject} {i j : Instr}
    (h : (if p then .ok i else .error e : Except Reject Instr) = .ok j) (hi : p → IsCommandOf f i) : IsCommandOf f j := by
  split at h
  next hp =>
    cases h
    exact hi hp
  next => cases h

/-- What the check of each format asks makes the fields those of the command's encoding: the fields it does not use are zero. -/
theorem isCommandOf_of_command {f : Fields} {i : Instr} (h : f.command = .ok i) : IsCommandOf f i := by
  obtain ⟨op, d, s, t, rnd⟩ := f
  rw [Fields.command] at h
  split at h
  case h_19 => cases h
  case h_1 hop | h_2 hop | h_3 hop | h_4 hop | h_5 hop =>
    refine isCommandOf_of_checked h ?_
    rintro ⟨rfl, rfl, rfl, rfl⟩
    exact ⟨rfl, by rw [hop]; rfl⟩
  case h_6 hop | h_7 hop =>
    refine isCommandOf_of_checked h ?_
    rintro ⟨rfl, rfl, rfl⟩
    exact ⟨rfl, by rw [hop]; rfl⟩
  case h_8 hop | h_9 hop =>
    rw [Fields.fdsr] at h
    split at h
    next ht =>
      cases ht
      exact isCommandOf_of_checked h fun hround => ⟨hround, by rw [hop]; rfl⟩
    next => cases h
  case h_10 hop | h_11 hop | h_12 hop | h_13 hop | h_15 hop | h_16 hop | h_18 hop =>
    refine isCommandOf_of_checked h ?_
    rintro ⟨rfl, rfl⟩
    exact ⟨rfl, by rw [hop]; rfl⟩
  case h_14 hop | h_17 hop =>
    refine isCommandOf_of_checked h ?_
    rintro rfl
    exact ⟨rfl, by rw [hop]; rfl⟩

/-- The decoder accepts the encodings of legal commands and nothing else (R74 to R76). -/
theorem decode_eq_ok_iff (v : Word) (i : Instr) : decode v = .ok i ↔ i.wellFormed = true ∧ encode i = v := by
  constructor
  · intro h
    obtain ⟨hupper, hlow, hhigh, hcommand⟩ := decode_eq_ok h
    obtain ⟨hlegal, hencode⟩ := isCommandOf_of_command hcommand
    exact ⟨hlegal, hencode.trans (assemble_fieldsOf hupper hlow hhigh)⟩
  · rintro ⟨hlegal, rfl⟩
    exact decode_encode hlegal

/-! ### Match and mask (R73) -/

/-- Two 32-bit words are equal when every field of R71 and R74 is. -/
theorem word32_eq_iff (x y : BitVec 32) :
    x = y ↔
      x.extractLsb' 0 8 = y.extractLsb' 0 8 ∧ x.extractLsb' 8 2 = y.extractLsb' 8 2 ∧ x.extractLsb' 10 2 = y.extractLsb' 10 2 ∧
      x.extractLsb' 12 2 = y.extractLsb' 12 2 ∧ x.extractLsb' 14 2 = y.extractLsb' 14 2 ∧
      x.extractLsb' 16 4 = y.extractLsb' 16 4 ∧ x.extractLsb' 20 12 = y.extractLsb' 20 12 := by
  refine ⟨by rintro rfl; simp only [and_self], fun h => BitVec.eq_of_toNat_eq ?_⟩
  have hx := x.isLt
  have hy := y.isLt
  simp only [← BitVec.toNat_inj, BitVec.extractLsb'_toNat, Nat.shiftRight_eq_div_pow] at h
  omega

/-- Which of D, S, T and RND a format uses (R72). -/
structure Format where
  d : Bool
  s : Bool
  t : Bool
  rnd : Bool

/-- Format F0 (R72). -/
def formatF0 : Format := ⟨false, false, false, false⟩

/-- Format FD (R72). -/
def formatFD : Format := ⟨true, false, false, false⟩

/-- Format FS (R72). -/
def formatFS : Format := ⟨false, true, false, false⟩

/-- Format FDS (R72). -/
def formatFDS : Format := ⟨true, true, false, false⟩

/-- Format FDST (R72). -/
def formatFDST : Format := ⟨true, true, true, false⟩

/-- Format FDSR (R72). -/
def formatFDSR : Format := ⟨true, true, false, true⟩

/-- The value with opcode `op` and the operands that the format uses, every other field zero. -/
def Format.word (F : Format) (op : Nat) (d s t : TsReg) (rnd : BitVec 4) : Word :=
  assemble op (if F.d then d else 0) (if F.s then s else 0) (if F.t then t else 0) (if F.rnd then rnd else 0#4)

/-- The mask column for a format: every bit but those of the fields it uses. -/
def Format.mask (F : Format) : BitVec 32 := ~~~(F.word 0 3 3 3 0xF#4).setWidth 32

/-- Under the mask, zero is asked of a field only where the format does not use it. -/
theorem and_unused_eq_zero_iff {n : Nat} (used : Bool) (x : BitVec n) :
    x &&& (if used then 0#n else BitVec.allOnes n) = 0#n ↔ (used = false → x = 0#n) := by
  cases used <;> simp

/-- The mask covers the opcode, the reserved bits and the fields that the format does not use. -/
theorem extractLsb'_mask (F : Format) :
    F.mask.extractLsb' 0 8 = BitVec.allOnes 8 ∧
    F.mask.extractLsb' 8 2 = (if F.d then 0#2 else BitVec.allOnes 2) ∧
    F.mask.extractLsb' 10 2 = (if F.s then 0#2 else BitVec.allOnes 2) ∧
    F.mask.extractLsb' 12 2 = (if F.t then 0#2 else BitVec.allOnes 2) ∧
    F.mask.extractLsb' 14 2 = BitVec.allOnes 2 ∧
    F.mask.extractLsb' 16 4 = (if F.rnd then 0#4 else BitVec.allOnes 4) ∧
    F.mask.extractLsb' 20 12 = BitVec.allOnes 12 := by
  obtain ⟨d, s, t, rnd⟩ := F
  revert d s t rnd
  decide

/-- The match column is the opcode alone. -/
theorem extractLsb'_opcode {op : Nat} (hop : op < 256) : (BitVec.ofNat 32 op).extractLsb' 0 8 = BitVec.ofNat 8 op := by
  apply BitVec.eq_of_toNat_eq
  rw [BitVec.extractLsb'_toNat, Nat.shiftRight_zero, BitVec.toNat_ofNat, BitVec.toNat_ofNat,
    Nat.mod_eq_of_lt (show op < 2 ^ 32 by omega)]

/-- The match column has zeros above the opcode. -/
theorem extractLsb'_above_opcode {op : Nat} (hop : op < 256) {lo : Nat} (hlo : 8 ≤ lo) (n : Nat) :
    (BitVec.ofNat 32 op).extractLsb' lo n = 0#n := by
  have hsmall : op < 2 ^ lo := hop.trans_le (Nat.pow_le_pow_right (n := 2) (by decide) hlo)
  apply BitVec.eq_of_toNat_eq
  rw [BitVec.extractLsb'_toNat, BitVec.toNat_ofNat, Nat.mod_eq_of_lt (show op < 2 ^ 32 by omega),
    Nat.shiftRight_eq_div_pow, Nat.div_eq_of_lt hsmall, BitVec.toNat_ofNat]

/-- The fields of a 32-bit word written to CMD. -/
theorem fieldsOf_setWidth (w : BitVec 32) :
    fieldsOf (w.setWidth 64) = ⟨w.extractLsb' 0 8, (w.extractLsb' 8 2).toFin, (w.extractLsb' 10 2).toFin,
      (w.extractLsb' 12 2).toFin, w.extractLsb' 16 4⟩ := by
  simp [fieldsOf, BitVec.extractLsb'_setWidth_of_le]

theorem toFin_eq_zero_iff (x : BitVec 2) : @Eq TsReg x.toFin 0 ↔ x = 0#2 := BitVec.toFin_inj (y := 0#2)

/-- Match and mask ask for the opcode, for zeros in the reserved bits and for zeros in the fields the format does not use. -/
theorem and_mask_eq_iff (F : Format) {op : Nat} (hop : op < 256) (w : BitVec 32) :
    w &&& F.mask = BitVec.ofNat 32 op ↔
      w.extractLsb' 14 2 = 0#2 ∧ w.extractLsb' 20 12 = 0#12 ∧ (fieldsOf (w.setWidth 64)).op = BitVec.ofNat 8 op ∧
      (F.d = false → (fieldsOf (w.setWidth 64)).d = 0) ∧ (F.s = false → (fieldsOf (w.setWidth 64)).s = 0) ∧
      (F.t = false → (fieldsOf (w.setWidth 64)).t = 0) ∧ (F.rnd = false → (fieldsOf (w.setWidth 64)).rnd = 0#4) := by
  obtain ⟨hopm, hd, hs, ht, hlow, hrnd, hhigh⟩ := extractLsb'_mask F
  rw [word32_eq_iff, fieldsOf_setWidth]
  simp (disch := decide) only [BitVec.extractLsb'_and, hopm, hd, hs, ht, hlow, hrnd, hhigh, extractLsb'_opcode hop,
    extractLsb'_above_opcode hop, BitVec.and_allOnes, and_unused_eq_zero_iff, toFin_eq_zero_iff]
  tauto

/-- A 32-bit word is the value of a format with the word's own fields iff it meets match and mask. -/
theorem word_fieldsOf_eq_iff (F : Format) {op : Nat} (hop : op < 256) (w : BitVec 32) {f : Fields}
    (hf : fieldsOf (w.setWidth 64) = f) :
    F.word op f.d f.s f.t f.rnd = w.setWidth 64 ↔ w &&& F.mask = BitVec.ofNat 32 op := by
  have hupper : (w.setWidth 64).extractLsb' 32 32 = 0#32 := by
    apply BitVec.eq_of_toNat_eq
    have hw := w.isLt
    simp [Nat.shiftRight_eq_div_pow]
    omega
  have hused {α : Type} (used : Bool) (x z : α) : x = (if used then x else z) ↔ (used = false → x = z) := by
    cases used <;> simp
  obtain ⟨op', d, s, t, rnd⟩ := f
  rw [Format.word, assemble_eq_iff hop, and_mask_eq_iff F hop, hf, Fields.mk.injEq]
  simp (disch := decide) only [hupper, BitVec.extractLsb'_setWidth_of_le, hused, true_and]

/-- A 32-bit word is a legal value of a format iff it meets match and mask with RND at most 9. -/
theorem exists_word_eq_iff (F : Format) {op : Nat} (hop : op < 256) (w : BitVec 32) :
    (∃ d s t rnd, legalRound (if F.rnd then rnd else 0#4) = true ∧ F.word op d s t rnd = w.setWidth 64) ↔
      w &&& F.mask = BitVec.ofNat 32 op ∧ (w.extractLsb' 16 4).toNat ≤ 9 := by
  have hround : (fieldsOf (w.setWidth 64)).rnd = w.extractLsb' 16 4 := congrArg Fields.rnd (fieldsOf_setWidth w)
  have hkeep {α : Type} (used : Bool) (x z : α) :
      (if used then (if used then x else z) else z) = if used then x else z := by
    cases used <;> rfl
  constructor
  · rintro ⟨d, s, t, rnd, hlegal, hword⟩
    obtain ⟨-, -, -, hfields⟩ := (assemble_eq_iff hop _ _ _ _ _).mp hword
    refine ⟨(word_fieldsOf_eq_iff F hop w hfields).mp ?_, ?_⟩
    · rw [← hword]
      simp only [Format.word, hkeep]
    · rw [← hround, hfields]
      exact of_decide_eq_true hlegal
  · rintro ⟨hmask, hlegal⟩
    have hword := (word_fieldsOf_eq_iff F hop w rfl).mpr hmask
    obtain ⟨-, -, -, hfields⟩ := (assemble_eq_iff hop _ _ _ _ _).mp hword
    refine ⟨_, _, _, _, decide_eq_true ?_, hword⟩
    have hrnd : (fieldsOf (w.setWidth 64)).rnd = if F.rnd then (fieldsOf (w.setWidth 64)).rnd else 0#4 :=
      congrArg Fields.rnd hfields
    rwa [← hrnd, hround]

/-! ### The rows of R73's table -/

/-- A row of R73's table stands for the commands `mk`: its match is the opcode `op`, its mask is that of the format `F`, and the
encoder writes `mk` in that format. -/
structure RowOf (row : OpcodeRow) (F : Format) (op : Nat) (mk : TsReg → TsReg → TsReg → BitVec 4 → Instr) : Prop where
  op_lt : op < 256 := by decide
  pattern_eq : row.pattern = BitVec.ofNat 32 op := by rfl
  mask_eq : row.mask = F.mask := by decide
  encode_mk (d s t : TsReg) (rnd : BitVec 4) : encode (mk d s t rnd) = F.word op d s t rnd := by intros; rfl
  wellFormed_mk (d s t : TsReg) (rnd : BitVec 4) :
    (mk d s t rnd).wellFormed = legalRound (if F.rnd then rnd else 0#4) := by intros; rfl
  named_mk (d s t : TsReg) (rnd : BitVec 4) : row.named (mk d s t rnd) = true := by intros; rfl
  eq_mk (i : Instr) (h : row.named i = true) : ∃ d s t rnd, i = mk d s t rnd

/-- A 32-bit word decodes to a command of a row iff it meets the row's match and mask with RND at most 9. -/
theorem RowOf.decode_iff {row : OpcodeRow} {F : Format} {op : Nat} {mk : TsReg → TsReg → TsReg → BitVec 4 → Instr}
    (h : RowOf row F op mk) (w : BitVec 32) :
    (∃ i, decode (w.setWidth 64) = .ok i ∧ row.named i = true) ↔
      (w &&& row.mask = row.pattern ∧ (w.extractLsb' 16 4).toNat ≤ 9) := by
  have hmk (d s t : TsReg) (rnd : BitVec 4) : decode (w.setWidth 64) = .ok (mk d s t rnd) ↔
      legalRound (if F.rnd then rnd else 0#4) = true ∧ F.word op d s t rnd = w.setWidth 64 := by
    rw [decode_eq_ok_iff, h.wellFormed_mk, h.encode_mk]
  rw [h.mask_eq, h.pattern_eq, ← exists_word_eq_iff F h.op_lt w]
  simp only [← hmk]
  constructor
  · rintro ⟨i, hdecode, hnamed⟩
    obtain ⟨d, s, t, rnd, rfl⟩ := h.eq_mk i hnamed
    exact ⟨d, s, t, rnd, hdecode⟩
  · rintro ⟨d, s, t, rnd, hdecode⟩
    exact ⟨_, hdecode, h.named_mk d s t rnd⟩

/-- Every row of the table stands for the commands of one opcode, in the format R73 gives it. -/
theorem exists_rowOf {row : OpcodeRow} (hrow : row ∈ opcodeRows) : ∃ F op mk, RowOf row F op mk := by
  revert row
  simp only [opcodeRows, List.cons_append, List.nil_append, List.forall_mem_cons]
  exact
    ⟨⟨formatF0, 0x01, fun _ _ _ _ => .reset, { eq_mk := fun | .reset, _ => ⟨0, 0, 0, 0#4, rfl⟩ }⟩,
      ⟨formatF0, 0x02, fun _ _ _ _ => .update, { eq_mk := fun | .update, _ => ⟨0, 0, 0, 0#4, rfl⟩ }⟩,
      ⟨formatF0, 0x03, fun _ _ _ _ => .final, { eq_mk := fun | .final, _ => ⟨0, 0, 0, 0#4, rfl⟩ }⟩,
      ⟨formatF0, 0x04, fun _ _ _ _ => .finalr, { eq_mk := fun | .finalr, _ => ⟨0, 0, 0, 0#4, rfl⟩ }⟩,
      ⟨formatF0, 0x05, fun _ _ _ _ => .digest, { eq_mk := fun | .digest, _ => ⟨0, 0, 0, 0#4, rfl⟩ }⟩,
      ⟨formatFD, 0x10, fun d _ _ _ => .pack d, { eq_mk := fun | .pack d, _ => ⟨d, 0, 0, 0#4, rfl⟩ }⟩,
      ⟨formatFS, 0x11, fun _ s _ _ => .unpack s, { eq_mk := fun | .unpack s, _ => ⟨0, s, 0, 0#4, rfl⟩ }⟩,
      ⟨formatFDSR, 0x20, fun d s _ rnd => .arcp d s rnd, { eq_mk := fun | .arcp d s rnd, _ => ⟨d, s, 0, rnd, rfl⟩ }⟩,
      ⟨formatFDSR, 0x21, fun d s _ rnd => .arcq d s rnd, { eq_mk := fun | .arcq d s rnd, _ => ⟨d, s, 0, rnd, rfl⟩ }⟩,
      ⟨formatFDS, 0x22, fun d s _ _ => .subb d s, { eq_mk := fun | .subb d s, _ => ⟨d, s, 0, 0#4, rfl⟩ }⟩,
      ⟨formatFDS, 0x23, fun d s _ _ => .shbp d s, { eq_mk := fun | .shbp d s, _ => ⟨d, s, 0, 0#4, rfl⟩ }⟩,
      ⟨formatFDS, 0x24, fun d s _ _ => .shbq d s, { eq_mk := fun | .shbq d s, _ => ⟨d, s, 0, 0#4, rfl⟩ }⟩,
      ⟨formatFDS, 0x25, fun d s _ _ => .mixb d s, { eq_mk := fun | .mixb d s, _ => ⟨d, s, 0, 0#4, rfl⟩ }⟩,
      ⟨formatFDST, 0x26, fun d s t _ => .xors d s t, { eq_mk := fun | .xors d s t, _ => ⟨d, s, t, 0#4, rfl⟩ }⟩,
      ⟨formatFDS, 0x30, fun d s _ _ => .permp d s, { eq_mk := fun | .permp d s, _ => ⟨d, s, 0, 0#4, rfl⟩ }⟩,
      ⟨formatFDS, 0x31, fun d s _ _ => .permq d s, { eq_mk := fun | .permq d s, _ => ⟨d, s, 0, 0#4, rfl⟩ }⟩,
      ⟨formatFDST, 0x38, fun d s t _ => .cmpr d s t, { eq_mk := fun | .cmpr d s t, _ => ⟨d, s, t, 0#4, rfl⟩ }⟩,
      ⟨formatFDS, 0x39, fun d s _ _ => .outx d s, { eq_mk := fun | .outx d s, _ => ⟨d, s, 0, 0#4, rfl⟩ }⟩,
      List.forall_mem_nil _⟩

end Sys2Proof.Laws
end

section
/-! PROOFS. The statements about the decoder and the encoder: they are inverse (R71 to R76), the spec's worked words (R79 and V20),
and the match and mask columns (R73). -/

namespace Sys2Proof.Proofs

open Sys2Proof.Laws

/-- Settles O1: the decoder reads the fields that the encoder put together, and each format accepts its own. -/
theorem decodeInvertsEncode : Obligations.DecodeInvertsEncode := fun _ => decode_encode

/-- Settles O2: the checks of the decoder leave no bit that the encoding does not fix. -/
theorem decodedValueIsTheEncoding : Obligations.DecodedValueIsTheEncoding := fun v i => (decode_eq_ok_iff v i).mp

/-- Settles O3: the words and values are closed, and the decoder computes. -/
theorem specWordsDecode : Obligations.SpecWordsDecode := by
  unfold Obligations.SpecWordsDecode
  decide

/-- Settles O4: every row of the table stands for the commands of one opcode in one format. -/
theorem matchAndMaskDecide : Obligations.MatchAndMaskDecide := fun w _ hrow => by
  obtain ⟨F, op, mk, h⟩ := exists_rowOf hrow
  exact h.decode_iff w

end Sys2Proof.Proofs
end

section
/-! SUPPORT. Sequences of commands that transform one TS register, and the round commands of P and Q (R80, R122, R124). -/

namespace Sys2Proof.Laws

open Sys2Proof.Machine

/-! ### Writing the same register again -/

theorem setTs_tsReg (s : State) (k : TsReg) : s.setTs k (s.tsReg k) = s := by
  simp [State.setTs, State.tsReg]

theorem setTs_setTs (s : State) (k : TsReg) (S S' : TState) : (s.setTs k S).setTs k S' = s.setTs k S' := by
  simp [State.setTs]

/-! ### Commands that transform one TS register -/

theorem execAll_append {cmds : List Instr} {s t : State} (h : execAll cmds s = .next t) (rest : List Instr) :
    execAll (cmds ++ rest) s = execAll rest t := by
  induction cmds generalizing s with
  | nil =>
    cases h
    rfl
  | cons i cmds ih =>
    rw [execAll] at h
    rw [List.cons_append, execAll]
    split at h
    next u => exact ih h
    next => cases h
    next => cases h

/-- On an engine without a fault, the commands apply `F` to TS[k] and change nothing else. -/
def Transforms (k : TsReg) (cmds : List Instr) (F : TState → TState) : Prop :=
  ∀ s : State, s.fault = .none → execAll cmds s = .next (s.setTs k (F (s.tsReg k)))

theorem transforms_nil (k : TsReg) : Transforms k [] id := fun s _ =>
  congrArg Host.Outcome.next (setTs_tsReg s k).symm

theorem Transforms.append {k : TsReg} {a b : List Instr} {F G : TState → TState} (ha : Transforms k a F)
    (hb : Transforms k b G) : Transforms k (a ++ b) fun S => G (F S) := fun s hf => by
  have hf' : (s.setTs k (F (s.tsReg k))).fault = .none := hf
  rw [execAll_append (ha s hf), hb _ hf', tsReg_setTs, if_pos rfl, setTs_setTs]

/-- A command whose meaning is a new value of TS[k] computed from the old one. -/
theorem transforms_of_toTs {k : TsReg} {i : Instr} {F : TState → TState}
    (h : ∀ s : State, exec i s = toTs k (F (s.tsReg k)) s) : Transforms k [i] F := fun s hf => by
  simp only [execAll, h, toTs_none hf]

/-! ### The rounds of P and Q (R80, R121, R123) -/

theorem transforms_arcp (k : TsReg) {rnd : BitVec 4} (hrnd : legalRound rnd = true) :
    Transforms k [.arcp k k rnd] fun S => arcP S rnd.toNat :=
  transforms_of_toTs fun _ => if_pos hrnd

theorem transforms_arcq (k : TsReg) {rnd : BitVec 4} (hrnd : legalRound rnd = true) :
    Transforms k [.arcq k k rnd] fun S => arcQ S rnd.toNat :=
  transforms_of_toTs fun _ => if_pos hrnd

theorem transforms_subb (k : TsReg) : Transforms k [.subb k k] subBytes := transforms_of_toTs fun _ => rfl

theorem transforms_shbp (k : TsReg) : Transforms k [.shbp k k] shiftP := transforms_of_toTs fun _ => rfl

theorem transforms_shbq (k : TsReg) : Transforms k [.shbq k k] shiftQ := transforms_of_toTs fun _ => rfl

theorem transforms_mixb (k : TsReg) : Transforms k [.mixb k k] mixBytes := transforms_of_toTs fun _ => rfl

/-- The four commands of ROUNDP are one round of P. -/
theorem transforms_roundpCommands (k : TsReg) {rnd : BitVec 4} (hrnd : legalRound rnd = true) :
    Transforms k (roundpCommands k rnd) fun S => roundP S rnd.toNat :=
  (((transforms_arcp k hrnd).append (transforms_subb k)).append (transforms_shbp k)).append (transforms_mixb k)

/-- The four commands of ROUNDQ are one round of Q. -/
theorem transforms_roundqCommands (k : TsReg) {rnd : BitVec 4} (hrnd : legalRound rnd = true) :
    Transforms k (roundqCommands k rnd) fun S => roundQ S rnd.toNat :=
  (((transforms_arcq k hrnd).append (transforms_subb k)).append (transforms_shbq k)).append (transforms_mixb k)

/-- Rounds done one after another, in the order of their indices. -/
theorem transforms_flatMap {k : TsReg} {cmds : BitVec 4 → List Instr} {round : TState → Nat → TState}
    (hround : ∀ rnd, legalRound rnd = true → Transforms k (cmds rnd) fun S => round S rnd.toNat) (indices : List (BitVec 4))
    (hlegal : ∀ rnd ∈ indices, legalRound rnd = true) :
    Transforms k (indices.flatMap cmds) fun S => (indices.map BitVec.toNat).foldl round S := by
  induction indices with
  | nil => exact transforms_nil k
  | cons rnd rest ih =>
    obtain ⟨hrnd, hrest⟩ := List.forall_mem_cons.mp hlegal
    exact (hround rnd hrnd).append (ih hrest)

theorem foldl_roundP (n : Nat) (S : TState) : (List.range n).foldl roundP S = roundsP n S := by
  induction n with
  | zero => rfl
  | succ n ih => rw [List.range_succ, List.foldl_concat, ih, roundsP]

theorem foldl_roundQ (n : Nat) (S : TState) : (List.range n).foldl roundQ S = roundsQ n S := by
  induction n with
  | zero => rfl
  | succ n ih => rw [List.range_succ, List.foldl_concat, ih, roundsQ]

/-- The round indices are those of the ten rounds of P and of Q. -/
theorem map_toNat_roundIndices : roundIndices.map BitVec.toNat = List.range Config.rounds := by decide

theorem legalRound_of_mem_roundIndices : ∀ rnd ∈ roundIndices, legalRound rnd = true := by decide

/-- The forty commands of ROUNDP t, 0 .. ROUNDP t, 9. -/
theorem transforms_permP (k : TsReg) : Transforms k (roundIndices.flatMap (roundpCommands k)) permP := by
  have hrounds : permP = fun S => (roundIndices.map BitVec.toNat).foldl roundP S := funext fun S => by
    rw [map_toNat_roundIndices, foldl_roundP, permP]
  rw [hrounds]
  exact transforms_flatMap (fun _ => transforms_roundpCommands k) roundIndices legalRound_of_mem_roundIndices

/-- The forty commands of ROUNDQ t, 0 .. ROUNDQ t, 9. -/
theorem transforms_permQ (k : TsReg) : Transforms k (roundIndices.flatMap (roundqCommands k)) permQ := by
  have hrounds : permQ = fun S => (roundIndices.map BitVec.toNat).foldl roundQ S := funext fun S => by
    rw [map_toNat_roundIndices, foldl_roundQ, permQ]
  rw [hrounds]
  exact transforms_flatMap (fun _ => transforms_roundqCommands k) roundIndices legalRound_of_mem_roundIndices

end Sys2Proof.Laws
end

section
/-! PROOFS. The statement about the round commands of P and Q (R80, R122, R124). -/

namespace Sys2Proof.Proofs

open Sys2Proof.Machine Sys2Proof.Laws

/-- Settles O36: both sides apply the ten rounds to TS[k]. -/
theorem permutationsAreTheirRounds : Obligations.PermutationsAreTheirRounds := fun k s hf =>
  ⟨(transforms_permP k s hf).trans (toTs_none hf k _).symm, (transforms_permQ k s hf).trans (toTs_none hf k _).symm⟩

end Sys2Proof.Proofs
end

section
/-! SUPPORT. PACK and UNPACK on an engine without a fault (R91 to R95): the outcome of each, the bytes UNPACK stores, and what
either leaves when it is broken off (R185 b). -/

namespace Sys2Proof.Laws

open Sys2Proof.Machine

/-! ### Transposition there and back (R93) -/

theorem unpack_pack (b : Vector Block 4) : unpack (pack b) = b := by
  ext l hl k hk : 2
  exact (get_unpack (pack b) ⟨l, hl⟩ ⟨k, hk⟩).trans (unpackByte_pack b ⟨l, hl⟩ ⟨k, hk⟩)

theorem pack_unpack (S : TState) : pack (unpack S) = S := by
  refine state_ext fun l r c => ?_
  have hget := get_unpack S l ⟨8 * c.val + r.val, by omega⟩
  rw [at_pack]
  exact hget.trans (unpackByte_index S l r c)

/-! ### The outcomes (R94, R95) -/

section
variable {s : State} (hf : s.fault = .none)
include hf

theorem execPack_of_canPack (h : s.canPack = true) (d : TsReg) : execPack d s = .next (s.setTs d (pack s.packSource)) := by
  rw [execPack, running_none hf, if_pos h]

theorem execPack_of_not_canPack (h : s.canPack = false) (d : TsReg) : execPack d s = .next (packBus d s) := by
  rw [execPack, running_none hf, if_neg (Bool.eq_false_iff.mp h)]

theorem execUnpack_of_canWrite (h : s.canWrite s.dst 256 = true) (k : TsReg) :
    execUnpack k s = .next { s with mem := storeAll s.mem (s.unpackStores k) } := by
  rw [execUnpack, running_none hf, if_pos h]

theorem execUnpack_of_not_canWrite (h : s.canWrite s.dst 256 = false) (k : TsReg) :
    execUnpack k s = .next { s.breakOff (s.unpackStores k) with fault := .bus } := by
  rw [execUnpack, running_none hf, if_neg (Bool.eq_false_iff.mp h)]

end

/-! ### What PACK reads (R94) -/

theorem at_pack_packSource (s : State) (l : Lane) (r c : Fin 8) :
    (pack s.packSource).at l r c = readAt s.mem (s.ptr l) (8 * c.val + r.val) := by
  simp [at_pack, State.packSource]

/-- PACK broken off has stored nothing, and its register is the only one it can have written (R185 b). -/
theorem packBus_frame (d : TsReg) (s : State) :
    (packBus d s).fault = .bus ∧ SameTsBut d s (packBus d s) ∧ SameHasher s (packBus d s) ∧
      SameSurroundings s (packBus d s) ∧ SameMemory s (packBus d s) :=
  ⟨rfl, fun k hk => (tsReg_setTs (s.breakOff []) d k _).trans (if_neg hk), ⟨rfl, rfl, rfl, rfl, rfl⟩,
    sameSurroundings_refl s, fun _ => rfl⟩

/-! ### What UNPACK stores (R95) -/

/-- The 256 bytes at DST are fewer than the address space has. -/
theorem unpack_size_le : 256 ≤ addressCount := by
  rw [addressCount]
  omega

/-- After the stores of UNPACK, byte j of lane l stands at DST + 64l + j. -/
theorem readAt_unpackStores (s : State) (k : TsReg) (l : Lane) (j : Fin 64) :
    readAt (storeAll s.mem (s.unpackStores k)) (s.dst + BitVec.ofNat 64 (64 * l.val)) j.val
      = unpackByte (s.tsReg k) l j.val := by
  have hsize : (unpackBytes (s.tsReg k)).length ≤ addressCount := by
    rw [length_unpackBytes]
    exact unpack_size_le
  have hlt : 64 * l.val + j.val < (unpackBytes (s.tsReg k)).length := by
    rw [length_unpackBytes]
    omega
  rw [readAt, offset_add, State.unpackStores, read_storeAll_storesAt _ _ _ hsize hlt, get_unpackBytes]

/-- Every store of UNPACK is that of byte j of some lane l, at DST + 64l + j. -/
theorem exists_of_mem_unpackStores {s : State} {k : TsReg} {c : Word × Byte} (hc : c ∈ s.unpackStores k) :
    ∃ (l : Lane) (j : Fin 64),
      c = (s.dst + BitVec.ofNat 64 (64 * l.val + j.val), unpackByte (s.tsReg k) l j.val) := by
  obtain ⟨i, hi, rfl⟩ := mem_storesAt hc
  rw [length_unpackBytes] at hi
  have hget := get_unpackBytes (s.tsReg k) ⟨i / 64, by omega⟩ ⟨i % 64, by omega⟩
  simp only [Nat.div_add_mod] at hget
  exact ⟨⟨i / 64, by omega⟩, ⟨i % 64, by omega⟩, Prod.ext (by simp only [Nat.div_add_mod]) hget⟩

/-- UNPACK broken off leaves every byte as before, or an admitted one as the completed command would (R185 b, log 8). -/
theorem read_breakOff_unpackStores (s : State) (k : TsReg) (a : Nat) :
    Memory.read (s.breakOff (s.unpackStores k)).mem a = Memory.read s.mem a ∨
      ∃ (l : Lane) (j : Fin 64), (s.dst + BitVec.ofNat 64 (64 * l.val + j.val)).toNat = a ∧
        s.writable (s.dst + BitVec.ofNat 64 (64 * l.val + j.val)) = true ∧
        Memory.read (s.breakOff (s.unpackStores k)).mem a = unpackByte (s.tsReg k) l j.val := by
  rw [mem_breakOff]
  obtain hsame | ⟨c, hc, haddr, hwritable, hread⟩ := read_storeTaken s s.draws 0 s.mem (s.unpackStores k) a
  · exact .inl hsame
  · obtain ⟨l, j, rfl⟩ := exists_of_mem_unpackStores hc
    exact .inr ⟨l, j, haddr, hwritable, hread⟩

end Sys2Proof.Laws
end

section
/-! PROOFS. The statements about PACK and UNPACK: they are inverse to each other (R93), what they write (R91, R92, R94, R95), and
what E_BUS leaves (R184, R185 b). -/

namespace Sys2Proof.Proofs

open Sys2Proof.Machine Sys2Proof.Laws

/-- Settles O22: byte 8c + r of lane l and matrix element A[l][r][c] determine each other. -/
theorem transpositionRoundTrip : Obligations.TranspositionRoundTrip := ⟨unpack_pack, pack_unpack⟩

/-- Settles O23: admitted byte by byte, PACK writes the transposed source blocks to TS[d] alone. -/
theorem packResult : Obligations.PackResult := fun d s hf hread =>
  ⟨_, execPack_of_canPack hf ((canPack_iff s).mpr hread) d, onlyTsChanged_setTs s d _, fun l r c => by
    rw [tsReg_setTs, if_pos rfl, at_pack_packSource]⟩

/-- Settles O24: admitted byte by byte, UNPACK changes memory alone, and there the 256 bytes at DST. -/
theorem unpackResult : Obligations.UnpackResult := by
  refine fun k s hf hwrite =>
    ⟨_, execUnpack_of_canWrite hf ((canWrite_iff s s.dst unpack_size_le).mpr hwrite) k, fun l r c => ?bytes, fun a ha => ?outside,
      fun _ => rfl, ⟨rfl, rfl, rfl, rfl, rfl⟩, rfl, sameSurroundings_refl s, rfl⟩
  case bytes =>
    dsimp only
    exact (readAt_unpackStores s k l ⟨8 * c.val + r.val, by omega⟩).trans (unpackByte_index (s.tsReg k) l r c)
  case outside =>
    dsimp only
    exact read_storeAll_outside s.mem s.dst (unpackBytes (s.tsReg k)) (by rwa [length_unpackBytes])

/-- Settles O19: with one byte refused the whole range is, and the command is broken off. -/
theorem transpositionBusFault : Obligations.TranspositionBusFault := by
  refine ⟨fun d s hf hrefused => ?pack, fun k s hf hrefused => ?unpack⟩
  case pack => exact ⟨_, execPack_of_not_canPack hf ((canPack_eq_false_iff s).mpr hrefused) d, packBus_frame d s⟩
  case unpack =>
    refine ⟨_, execUnpack_of_not_canWrite hf ((canWrite_eq_false_iff s s.dst unpack_size_le).mpr hrefused) k, rfl,
      fun _ => rfl, ⟨rfl, rfl, rfl, rfl, rfl⟩, sameSurroundings_refl s, fun a => ?_⟩
    dsimp only
    exact read_breakOff_unpackStores s k a

end Sys2Proof.Proofs
end

section
/-! SUPPORT. The round primitives: a command with a result in TS[d] stated element by element (R100), ArcP and ArcQ as
involutions (R101, R103), repeated shifts (R107, R109), and MixBytes as a sum over the rows of one column (R111, R112). -/

namespace Sys2Proof.Laws

open Sys2Proof.Machine

/-! ### A command with a result in TS[d] (R75, R100) -/

/-- On an engine without a fault TS[d] takes the elements of `S`, and nothing else changes. -/
theorem toTs_result {s : State} (hf : s.fault = .none) (d : TsReg) (S : TState) {A : Lane → Fin 8 → Fin 8 → Byte}
    (hA : ∀ l r c, S.at l r c = A l r c) :
    ∃ t, toTs d S s = .next t ∧ OnlyTsChanged d s t ∧ ∀ l r c, (t.tsReg d).at l r c = A l r c :=
  ⟨_, toTs_none hf d S, onlyTsChanged_setTs s d S, fun l r c => by rw [tsReg_setTs, if_pos rfl, hA]⟩

theorem withRound_of_le {rnd : BitVec 4} (h : rnd.toNat ≤ 9) (s : State) (k : Result) : withRound rnd s k = k :=
  if_pos (decide_eq_true h)

/-! ### ArcP and ArcQ (R101 to R104) -/

theorem arcP_arcP (S : TState) (i : Nat) : arcP (arcP S i) i = S := by
  refine state_ext_word fun r => ?_
  by_cases hr : r = 0 <;> simp [arcP, hr]

theorem arcQ_arcQ (S : TState) (i : Nat) : arcQ (arcQ S i) i = S := by
  refine state_ext_word fun r => ?_
  by_cases hr : r = 7
  · simp only [arcQ, word_ofWords, hr, if_true]
    rw [BitVec.xor_assoc _ onesMask, BitVec.xor_assoc _ onesMask, BitVec.xor_assoc, BitVec.xor_self, BitVec.xor_zero]
  · simp [arcQ, hr, BitVec.xor_assoc]

/-! ### ShiftP and ShiftQ (R107 to R110) -/

theorem sigmaP_eq : ∀ r : Fin 8, sigmaP r = r.val := by decide

theorem sigmaQ_eq : ∀ r : Fin 8, sigmaQ r = #v[1, 3, 5, 7, 0, 2, 4, 6][r] := by decide

/-- Shifting n times moves row r by n times its amount. -/
theorem at_iterate_shiftBytes (sigma : Fin 8 → Nat) (S : TState) (l : Lane) (r c : Fin 8) (n : Nat) :
    ((shiftBytes sigma)^[n] S).at l r c = S.at l r (Fin.ofNat 8 (c.val + n * sigma r)) := by
  induction n generalizing c with
  | zero => simp
  | succ n ih =>
    rw [Function.iterate_succ_apply', at_shiftBytes, ih]
    congr 1
    ext
    simp only [Fin.val_ofNat, Nat.mod_add_mod, Nat.succ_mul]
    congr 1
    omega

/-- Eight shifts by any amounts come back to the start. -/
theorem iterate_eight_shiftBytes (sigma : Fin 8 → Nat) (S : TState) : (shiftBytes sigma)^[8] S = S :=
  state_ext fun l r c => by
    rw [at_iterate_shiftBytes]
    congr 1
    ext
    simp

/-! ### Multiplication by a constant is linear (R14) -/

theorem xtime_xor (a b : Byte) : xtime (a ^^^ b) = xtime a ^^^ xtime b := by
  apply BitVec.eq_of_getLsbD_eq
  intro k hk
  simp only [BitVec.getLsbD_xor, getLsbD_xtime _ k hk, Bool.and_xor_distrib_left, Bool.and_xor_distrib_right,
    Bool.xor_assoc, Bool.xor_left_comm]

theorem xtimeIter_xor (k : Nat) (a b : Byte) : xtimeIter k (a ^^^ b) = xtimeIter k a ^^^ xtimeIter k b := by
  induction k with
  | zero => rfl
  | succ k ih => rw [xtimeIter, ih, xtime_xor, xtimeIter, xtimeIter]

theorem gmulUpTo_xor (x a b : Byte) (n : Nat) : gmulUpTo x (a ^^^ b) n = gmulUpTo x a n ^^^ gmulUpTo x b n := by
  induction n with
  | zero => simp [gmulUpTo]
  | succ n ih =>
    simp only [gmulUpTo, ih, xtimeIter_xor]
    split
    · ac_rfl
    · simp

theorem gmul_xor (x a b : Byte) : gmul x (a ^^^ b) = gmul x a ^^^ gmul x b := gmulUpTo_xor x a b 8

/-! ### MixBytes (R111 to R113) -/

theorem mixSumUpTo_xorState (S S' : TState) (l : Lane) (i c : Fin 8) (n : Nat) :
    mixSumUpTo (xorState S S') l i c n = mixSumUpTo S l i c n ^^^ mixSumUpTo S' l i c n := by
  induction n with
  | zero => simp [mixSumUpTo]
  | succ n ih =>
    simp only [mixSumUpTo, ih, at_xorState, gmul_xor]
    ac_rfl

theorem mixBytes_xorState (S S' : TState) : mixBytes (xorState S S') = xorState (mixBytes S) (mixBytes S') :=
  state_ext fun l i c => by rw [at_xorState, at_mixBytes, at_mixBytes, at_mixBytes, mixSumUpTo_xorState]

/-- The first row (02, 02, 03, 04, 05, 03, 05, 07) of the circulant matrix B of R111. -/
def mixRow : Vector Byte 8 := #v[0x02#8, 0x02#8, 0x03#8, 0x04#8, 0x05#8, 0x03#8, 0x05#8, 0x07#8]

theorem mixCoef_eq_mixRow : ∀ i j : Fin 8, mixCoef (j.val + 8 - i.val) = mixRow[j - i] := by decide

/-- The XOR of eight bytes, in order. -/
def xorSum (f : Fin 8 → Byte) : Byte := ((List.finRange 8).map f).foldl (· ^^^ ·) 0#8

theorem mixSumUpTo_eq_foldl (S : TState) (l : Lane) (i c : Fin 8) (n : Nat) :
    mixSumUpTo S l i c n =
      ((List.range n).map fun j => gmul (mixCoef (j + 8 - i.val)) (S.at l (Fin.ofNat 8 j) c)).foldl (· ^^^ ·) 0#8 := by
  induction n with
  | zero => rfl
  | succ n ih => rw [mixSumUpTo, ih, List.range_succ, List.map_append, List.map_singleton, List.foldl_concat]

/-- R111, as a sum over the input rows. -/
theorem at_mixBytes_eq_xorSum (S : TState) (l : Lane) (i c : Fin 8) :
    (mixBytes S).at l i c = xorSum fun j => gmul mixRow[j - i] (S.at l j c) := by
  rw [at_mixBytes, mixSumUpTo_eq_foldl, ← List.map_coe_finRange_eq_range, List.map_map, xorSum]
  congr 2
  funext j
  have hj : Fin.ofNat 8 j.val = j := Fin.ext (Nat.mod_eq_of_lt j.isLt)
  rw [Function.comp_apply, hj, mixCoef_eq_mixRow]

theorem finRange_perm_add : ∀ i : Fin 8, (List.finRange 8).Perm ((List.finRange 8).map (i + ·)) := by decide

/-- The sum may start at any row. -/
theorem xorSum_rotate (f : Fin 8 → Byte) (i : Fin 8) : xorSum f = xorSum fun k => f (i + k) := by
  have h := ((finRange_perm_add i).map f).foldl_eq (f := fun a b : Byte => a ^^^ b) 0#8
  rwa [List.map_map] at h

theorem xorSum_eq (f : Fin 8 → Byte) : xorSum f = f 0 ^^^ f 1 ^^^ f 2 ^^^ f 3 ^^^ f 4 ^^^ f 5 ^^^ f 6 ^^^ f 7 := by
  change 0#8 ^^^ f 0 ^^^ f 1 ^^^ f 2 ^^^ f 3 ^^^ f 4 ^^^ f 5 ^^^ f 6 ^^^ f 7 = _
  rw [BitVec.zero_xor]

section
variable (a : Byte)

theorem gmul_two : gmul 0x02#8 a = xtime a := by simp [gmul, gmulUpTo, xtimeIter]
theorem gmul_three : gmul 0x03#8 a = a ^^^ xtime a := by simp [gmul, gmulUpTo, xtimeIter]
theorem gmul_four : gmul 0x04#8 a = xtime (xtime a) := by simp [gmul, gmulUpTo, xtimeIter]
theorem gmul_five : gmul 0x05#8 a = a ^^^ xtime (xtime a) := by simp [gmul, gmulUpTo, xtimeIter]
theorem gmul_seven : gmul 0x07#8 a = a ^^^ xtime a ^^^ xtime (xtime a) := by simp [gmul, gmulUpTo, xtimeIter]

end

/-- One output byte of MixBytes with the bytes counted from row i on: those doubled twice, those doubled once, and those
added as they are. -/
theorem xorSum_mixRow_eq_doublings (b : Fin 8 → Byte) :
    xorSum (fun k => gmul mixRow[k] (b k)) =
      xtime (xtime (b 3 ^^^ b 4 ^^^ (b 6 ^^^ b 7)) ^^^ (b 7 ^^^ b 0 ^^^ (b 1 ^^^ b 2) ^^^ b 5))
        ^^^ (b 4 ^^^ b 5 ^^^ (b 6 ^^^ b 7) ^^^ b 2) := by
  rw [xorSum_eq]
  change gmul 0x02#8 (b 0) ^^^ gmul 0x02#8 (b 1) ^^^ gmul 0x03#8 (b 2) ^^^ gmul 0x04#8 (b 3) ^^^ gmul 0x05#8 (b 4)
    ^^^ gmul 0x03#8 (b 5) ^^^ gmul 0x05#8 (b 6) ^^^ gmul 0x07#8 (b 7) = _
  simp only [gmul_two, gmul_three, gmul_four, gmul_five, gmul_seven, xtime_xor]
  ac_rfl

end Sys2Proof.Laws
end

section
/-! PROOFS. The statements about the round primitives: what each command leaves in TS[d] (R101 to R115), the two-doubling form of
MixBytes (R112), and the corner cases (R102, R104, R108, R110, R113). -/

namespace Sys2Proof.Proofs

open Sys2Proof.Machine Sys2Proof.Laws

/-- Settles O25: with a legal index ARCP writes ArcP(TS[S], rnd), whose row 0 alone takes the round constant. -/
theorem arcpResult : Obligations.ArcpResult := fun d k rnd s hf hrnd => by
  rw [exec, execArcp, withRound_of_le hrnd]
  refine toTs_result hf d _ fun l r c => ?_
  rw [at_arcP]
  exact ite_congr rfl (fun hr => by rw [hr]) fun _ => rfl

/-- Settles O26: with a legal index ARCQ writes ArcQ(TS[S], rnd), whose row 7 alone takes more than the ones mask. -/
theorem arcqResult : Obligations.ArcqResult := fun d k rnd s hf hrnd => by
  rw [exec, execArcq, withRound_of_le hrnd]
  refine toTs_result hf d _ fun l r c => ?_
  rw [at_arcQ]
  exact ite_congr rfl (fun hr => by rw [hr]) fun _ => rfl

/-- Settles O27: SubBytes acts byte by byte. -/
theorem subbResult : Obligations.SubbResult := fun d _ _ hf => toTs_result hf d _ (at_subBytes _)

/-- Settles O29: both commands are `shiftBytes`, with the amounts of R107 and of R109. -/
theorem shiftResults : Obligations.ShiftResults := by
  refine fun d k s hf => ⟨toTs_result hf d (shiftP (s.tsReg k)) fun l r c => ?p,
    toTs_result hf d (shiftQ (s.tsReg k)) fun l r c => ?q⟩
  case p => rw [shiftP, at_shiftBytes, sigmaP_eq]
  case q => rw [shiftQ, at_shiftBytes, sigmaQ_eq]

/-- Settles O30: the rows XORed one after another by the engine are the sum over the input rows. -/
theorem mixbResult : Obligations.MixbResult := fun d _ _ hf => toTs_result hf d _ (at_mixBytes_eq_xorSum _)

/-- Settles O31: counted from row i on, the coefficients are those of the first row of B, and R112 groups them by doublings. -/
theorem mixBytesTwoDoublings : Obligations.MixBytesTwoDoublings := by
  intro S l i c
  have hsum : (mixBytes S).at l i c = xorSum fun k => gmul mixRow[k] (S.at l (i + k) c) := by
    rw [at_mixBytes_eq_xorSum, xorSum_rotate _ i]
    simp only [add_sub_cancel_left]
  rw [hsum, xorSum_mixRow_eq_doublings]
  simp only [add_assoc]
  rfl

/-- Settles O32: the XOR word by word is the XOR of the matrix elements. -/
theorem xorsResult : Obligations.XorsResult := fun d _ _ _ hf => toTs_result hf d _ (at_xorState _ _)

/-- Settles O33: XORing the same constants twice cancels, eight shifts add up to a multiple of 8 columns, and each product of
MixBytes is linear. -/
theorem primitiveCornerCases : Obligations.PrimitiveCornerCases :=
  ⟨fun S i => ⟨arcP_arcP S i, arcQ_arcQ S i⟩,
    fun S => ⟨iterate_eight_shiftBytes sigmaP S, iterate_eight_shiftBytes sigmaQ S⟩, mixBytes_xorState⟩

end Sys2Proof.Proofs
end

section
/-! SUPPORT. A command that applies ten numbered rounds to TS[k], stated as the sequence of states between the rounds (R120 to
R124). -/

namespace Sys2Proof.Laws

open Sys2Proof.Machine

/-- With `rounds n` the rounds 0..n-1 in order: on an engine without a fault TS[d] takes the last of the eleven states from TS[k]
through the ten rounds, and nothing else changes. -/
theorem toTs_rounds {s : State} (hf : s.fault = .none) (d k : TsReg) {round : TState → Nat → TState}
    {rounds : Nat → TState → TState} (hzero : ∀ S, rounds 0 S = S)
    (hsucc : ∀ n S, rounds (n + 1) S = round (rounds n S) n) :
    ∃ t, toTs d (rounds Config.rounds (s.tsReg k)) s = .next t ∧ OnlyTsChanged d s t ∧
      ∃ S : Fin 11 → TState, S 0 = s.tsReg k ∧ (∀ i : Fin 10, S i.succ = round (S i.castSucc) i.val) ∧
        t.tsReg d = S 10 :=
  ⟨_, toTs_none hf d _, onlyTsChanged_setTs s d _, fun i => rounds i.val (s.tsReg k), hzero _, fun i => hsucc i.val _,
    (tsReg_setTs s d d _).trans (if_pos rfl)⟩

end Sys2Proof.Laws
end

section
/-! PROOFS. The statements about PERMP and PERMQ: ten rounds in order, with the result in TS[d] alone (R120 to R124). -/

namespace Sys2Proof.Proofs

open Sys2Proof.Machine Sys2Proof.Laws

/-- Settles O34: the states after 0, 1, .., 10 rounds of P are the sequence, by the recursion of `roundsP`. -/
theorem permpResult : Obligations.PermpResult := fun d k _ hf =>
  toTs_rounds (round := roundP) (rounds := roundsP) hf d k (fun _ => rfl) fun _ _ => rfl

/-- Settles O35: the states after 0, 1, .., 10 rounds of Q are the sequence, by the recursion of `roundsQ`. -/
theorem permqResult : Obligations.PermqResult := fun d k _ hf =>
  toTs_rounds (round := roundQ) (rounds := roundsQ) hf d k (fun _ => rfl) fun _ _ => rfl

end Sys2Proof.Proofs
end

section
/-! SUPPORT. The compositions of XORS, PERMP and PERMQ that R132 and R135 give for CMPR and OUTX, run on an engine without a
fault. -/

namespace Sys2Proof.Laws

open Sys2Proof.Machine

/-- A first command that writes TS[d] alone hands the state with the new TS[d] to the rest. -/
theorem execAll_cons_of_toTs {s : State} (hf : s.fault = .none) {i : Instr} {d : TsReg} {S : TState}
    (h : exec i s = toTs d S s) (rest : List Instr) : execAll (i :: rest) s = execAll rest (s.setTs d S) := by
  rw [execAll, h, toTs_none hf]

theorem execAll_xors_cons {s : State} (hf : s.fault = .none) (d k j : TsReg) (rest : List Instr) :
    execAll (.xors d k j :: rest) s = execAll rest (s.setTs d (xorState (s.tsReg k) (s.tsReg j))) :=
  execAll_cons_of_toTs hf rfl rest

theorem execAll_permp_cons {s : State} (hf : s.fault = .none) (d k : TsReg) (rest : List Instr) :
    execAll (.permp d k :: rest) s = execAll rest (s.setTs d (permP (s.tsReg k))) :=
  execAll_cons_of_toTs hf rfl rest

theorem execAll_permq_cons {s : State} (hf : s.fault = .none) (d k : TsReg) (rest : List Instr) :
    execAll (.permq d k :: rest) s = execAll rest (s.setTs d (permQ (s.tsReg k))) :=
  execAll_cons_of_toTs hf rfl rest

theorem xorState_comm (S S' : TState) : xorState S S' = xorState S' S :=
  state_ext fun l r c => by rw [at_xorState, at_xorState, BitVec.xor_comm]

/-- The composition of R132: t3 holds `P(h ^ m) ^ h` and tt holds `Q(m)` when td takes their XOR. -/
theorem execAll_cmprComposition {s : State} (hf : s.fault = .none) (d : TsReg) {k j : TsReg} (hk : k ≠ 3) (hj : j ≠ 3) :
    ∃ u, execAll [.xors 3 k j, .permp 3 3, .xors 3 3 k, .permq j j, .xors d 3 j] s = .next u ∧
      u.tsReg d = compress (s.tsReg k) (s.tsReg j) := by
  simp only [execAll_xors_cons, execAll_permp_cons, execAll_permq_cons, fault_setTs, hf]
  refine ⟨_, rfl, ?_⟩
  simp only [tsReg_setTs, if_true, if_neg hk, if_neg hj, if_neg hj.symm]
  rw [xorState_comm _ (s.tsReg k), compress]

/-- The composition of R135: t3 holds `P(S)` when td takes its XOR with ts. -/
theorem execAll_outxComposition {s : State} (hf : s.fault = .none) (d : TsReg) {k : TsReg} (hk : k ≠ 3) :
    ∃ u, execAll [.permp 3 k, .xors d 3 k] s = .next u ∧ u.tsReg d = outX (s.tsReg k) := by
  simp only [execAll_xors_cons, execAll_permp_cons, fault_setTs, hf]
  refine ⟨_, rfl, ?_⟩
  simp only [tsReg_setTs, if_true, if_neg hk, outX]

/-- Commands that end with `S` in TS[d] leave there what a command leaves whose meaning is to write `S` to it. -/
theorem toTs_agrees_execAll {s : State} (hf : s.fault = .none) {d : TsReg} {S : TState} {cmds : List Instr}
    (h : ∃ u, execAll cmds s = .next u ∧ u.tsReg d = S) :
    ∃ t u, toTs d S s = .next t ∧ execAll cmds s = .next u ∧ t.tsReg d = u.tsReg d := by
  obtain ⟨u, hrun, hu⟩ := h
  exact ⟨_, u, toTs_none hf d S, hrun, by rw [tsReg_setTs, if_pos rfl, hu]⟩

end Sys2Proof.Laws
end

section
/-! PROOFS. The statements about CMPR and OUTX: what each leaves in TS[d] (R131 to R135), and the compositions of primitives that
leave the same there. -/

namespace Sys2Proof.Proofs

open Sys2Proof.Machine Sys2Proof.Laws

/-- Settles O37: the two XORs of R131 are XORs of the matrix elements. -/
theorem cmprResult : Obligations.CmprResult := fun d k j s hf =>
  toTs_result hf d (compress (s.tsReg k) (s.tsReg j)) fun l r c => by rw [compress, at_xorState, at_xorState]

/-- Settles O38: the feed-forward XOR of R134 is an XOR of the matrix elements. -/
theorem outxResult : Obligations.OutxResult := fun d k s hf =>
  toTs_result hf d (outX (s.tsReg k)) (at_xorState (permP (s.tsReg k)) (s.tsReg k))

/-- Settles O39: with the sources apart from the scratch t3, each composition ends with the command's own function of the
sources in TS[d]. -/
theorem compressionComposes : Obligations.CompressionComposes := fun d _ _ _ hf hk =>
  ⟨fun hj => toTs_agrees_execAll hf (execAll_cmprComposition hf d hk hj),
    toTs_agrees_execAll hf (execAll_outxComposition hf d hk)⟩

end Sys2Proof.Proofs
end

section
/-! SUPPORT. The commands of 44_streaming.md on an engine without a fault: which outcome each check leads to, byte by byte where
the check is admission (R54), and the frame of a command that finalizes or is broken off (R150, R154, R185 b). -/

namespace Sys2Proof.Laws

open Sys2Proof.Machine

/-! ### The outcomes (R142 to R153) -/

section
variable {s : State} (hf : s.fault = .none)
include hf

theorem execReset_none : execReset s = .next s.instReset := running_none hf _

theorem execUpdate_of_fin (hfin : s.fin = true) : execUpdate s = .next { s with fault := .phase } := by
  rw [execUpdate, running_none hf, if_pos hfin, raise]

theorem execUpdate_of_allZero (hfin : s.fin = false) (hlen : s.lengths = .allZero) : execUpdate s = .next s := by
  rw [execUpdate, running_none hf, if_neg (Bool.eq_false_iff.mp hfin), hlen]

theorem execUpdate_of_canAbsorb (hfin : s.fin = false) {n : Word} (hlen : s.lengths = .common n)
    (h : s.canAbsorb = true) : execUpdate s = .next (s.markAbsent.absorb n.toNat) := by
  rw [execUpdate, running_none hf, if_neg (Bool.eq_false_iff.mp hfin), hlen]
  exact if_pos h

theorem execUpdate_of_not_canAbsorb (hfin : s.fin = false) {n : Word} (hlen : s.lengths = .common n)
    (h : s.canAbsorb = false) : execUpdate s = .next (updateBus n.toNat s) := by
  rw [execUpdate, running_none hf, if_neg (Bool.eq_false_iff.mp hfin), hlen]
  exact if_neg (Bool.eq_false_iff.mp h)

theorem execFinal_of_fin (hfin : s.fin = true) : execFinal s = .next { s with fault := .phase } := by
  rw [execFinal, running_none hf, if_pos hfin, raise]

theorem execFinal_of_canWrite (hfin : s.fin = false) (h : s.canWrite s.dst 128 = true) :
    execFinal s = .next { s.finalizeAndStore with fin := true } := by
  rw [execFinal, running_none hf, if_neg (Bool.eq_false_iff.mp hfin), if_pos h]

theorem execFinal_of_not_canWrite (hfin : s.fin = false) (h : s.canWrite s.dst 128 = false) :
    execFinal s = .next (hasherBus s.digestStores s) := by
  rw [execFinal, running_none hf, if_neg (Bool.eq_false_iff.mp hfin), if_neg (Bool.eq_false_iff.mp h)]

theorem execFinalr_of_fin (hfin : s.fin = true) : execFinalr s = .next { s with fault := .phase } := by
  rw [execFinalr, running_none hf, if_pos hfin, raise]

theorem execFinalr_of_canWrite (hfin : s.fin = false) (h : s.canWrite s.dst 128 = true) :
    execFinalr s = .next s.finalizeAndStore.instReset := by
  rw [execFinalr, running_none hf, if_neg (Bool.eq_false_iff.mp hfin), if_pos h]

theorem execFinalr_of_not_canWrite (hfin : s.fin = false) (h : s.canWrite s.dst 128 = false) :
    execFinalr s = .next (hasherBus s.digestStores s) := by
  rw [execFinalr, running_none hf, if_neg (Bool.eq_false_iff.mp hfin), if_neg (Bool.eq_false_iff.mp h)]

theorem execDigest_of_admitted (hlen : s.lengths ≠ .unequal) (hread : s.canAbsorb = true)
    (hwrite : s.canWrite s.dst 128 = true) : execDigest s = .next s.hashed.finalizeAndStore.instReset := by
  rw [execDigest, running_none hf, if_neg hlen, if_pos (Bool.and_eq_true_iff.mpr ⟨hread, hwrite⟩)]

theorem execDigest_of_refused (hlen : s.lengths ≠ .unequal) (h : (s.canAbsorb && s.canWrite s.dst 128) = false) :
    execDigest s = .next (hasherBus s.digestBrokenStores s) := by
  rw [execDigest, running_none hf, if_neg hlen, if_neg (Bool.eq_false_iff.mp h)]

end

/-! ### Admission byte by byte (R54, R57) -/

/-- The 128 bytes at DST are fewer than the address space has. -/
theorem digest_size_le : 128 ≤ addressCount := by
  rw [addressCount]
  omega

theorem canAbsorb_eq_false_iff (s : State) :
    s.canAbsorb = false ↔
      ∃ l, s.active l = true ∧ ∃ k < (s.len l).toNat, s.readable (s.ptr l + BitVec.ofNat 64 k) = false := by
  rw [← Bool.not_eq_true, canAbsorb_iff]
  simp only [not_forall, Bool.not_eq_true, exists_prop]

/-- The length of an active lane is the common one (R143). -/
theorem len_of_common {s : State} {n : Word} (hlen : s.lengths = .common n) {l : Lane} (hl : s.active l = true) :
    s.len l = n :=
  ((lengths_common_iff s n).mp hlen).2 l hl

/-! ### The frame of a command that finalizes or is broken off -/

theorem sameTsBut_instReset (s : State) : SameTsBut 0 s s.instReset := fun k hk => by rw [tsReg_instReset, if_neg hk]

theorem sameTsBut_finalizeAndStore (s : State) : SameTsBut 0 s s.finalizeAndStore := fun k hk => by
  rw [tsReg_finalizeAndStore, if_neg hk]

theorem sameTsBut_trans {d : TsReg} {s t u : State} (h : SameTsBut d s t) (h' : SameTsBut d t u) : SameTsBut d s u :=
  fun k hk => (h' k hk).trans (h k hk)

theorem sameTsBut_updateBus (len : Nat) (s : State) : SameTsBut 0 s (updateBus len s) := fun k hk =>
  (tsReg_of_set_zero rfl k).trans (if_neg hk)

theorem sameTsBut_hasherBus (stores : List (Word × Byte)) (s : State) : SameTsBut 0 s (hasherBus stores s) := fun k hk =>
  (tsReg_freeHasher (s.breakOff stores) s.draws k).trans (if_neg hk)

/-- FINAL, FINALR and DIGEST, completing or faulting, leave every byte outside the 128 at DST (R57). -/
theorem sameMemoryOutside_of_digesting {i : Instr} (hi : i ∈ [Instr.final, .finalr, .digest]) {s t : State}
    (h : exec i s = .next t) : SameMemoryOutside s.dst 128 s t := fun _ ha =>
  read_exec_of_forall_ne h (storesOf_digesting_address_ne hi ha)

/-! ### Digests stored in part (R154, R185 b) -/

/-- Every digest store is that of byte j of some lane l, at DST + 32l + j. -/
theorem exists_of_mem_digestStores {addr : Word} {S : TState} {c : Word × Byte} (hc : c ∈ storesAt addr (digestBytes S)) :
    ∃ (l : Lane) (j : Fin 32), c = (addr + BitVec.ofNat 64 (32 * l.val + j.val), unpackByte S l (32 + j.val)) := by
  obtain ⟨i, hi, rfl⟩ := mem_storesAt hc
  rw [length_digestBytes] at hi
  have hget := get_digestBytes S ⟨i / 32, by omega⟩ ⟨i % 32, by omega⟩
  simp only [Nat.div_add_mod] at hget
  exact ⟨⟨i / 32, by omega⟩, ⟨i % 32, by omega⟩, Prod.ext (by simp only [Nat.div_add_mod]) hget⟩

/-- Broken off while it stores the digests of `S`, a command leaves every byte as before, or an admitted one of the destination
as the completed command would (log 8). -/
theorem read_hasherBus_digests (s : State) (S : TState) (a : Nat) :
    Memory.read (hasherBus (storesAt s.dst (digestBytes S)) s).mem a = Memory.read s.mem a ∨
      ∃ (l : Lane) (j : Fin 32), (s.dst + BitVec.ofNat 64 (32 * l.val + j.val)).toNat = a ∧
        s.writable (s.dst + BitVec.ofNat 64 (32 * l.val + j.val)) = true ∧
        Memory.read (hasherBus (storesAt s.dst (digestBytes S)) s).mem a = unpackByte S l (32 + j.val) := by
  have hmem : ∀ stores, (hasherBus stores s).mem = s.storeTaken s.draws 0 s.mem stores := fun _ => rfl
  rw [hmem]
  obtain hsame | ⟨c, hc, haddr, hwritable, hread⟩ :=
    read_storeTaken s s.draws 0 s.mem (storesAt s.dst (digestBytes S)) a
  · exact .inl hsame
  · obtain ⟨l, j, rfl⟩ := exists_of_mem_digestStores hc
    exact .inr ⟨l, j, haddr, hwritable, hread⟩

/-! ### STATUS after FINAL (R33) -/

/-- STATUS of a finalized hasher on an engine without a fault: FIN, and LSKIP from bit 8. -/
theorem status_of_fin {s : State} (hfin : s.fin = true) (hf : s.fault = .none) :
    s.status = 0x10#64 ||| (s.lskip.setWidth 64 <<< 8) := by
  simp only [State.status, State.isBuffering, State.isEmpty, hfin, hf, Bool.not_true, Bool.false_and]
  congr 1

end Sys2Proof.Laws
end

section
/-! SUPPORT. Padding blocks as byte strings (R148), UPDATE and FINALR inside DIGEST (R153), and that the commands of files 40 to 43
neither read nor write FIN (R155). -/

namespace Sys2Proof.Laws

open Sys2Proof.Machine

/-! ### Padding blocks as byte strings (R148) -/

section
variable (row : Block) (r : Fin 64) (count : Word)

/-- With r < 56 the one padding block has four regions: the buffered bytes, the mark, zeros and the count. -/
theorem toList_padFirst_of_lt (h : r.val < 56) :
    (padFirst row r.val count).toList =
      row.toList.take r.val ++ [0x80#8] ++ List.replicate (55 - r.val) 0x00#8 ++ (List.range 8).map (be64 count) := by
  refine List.ext_getElem (by simp; omega) fun k hk _ => ?_
  rw [Vector.length_toList] at hk
  rw [Vector.getElem_toList, show (padFirst row r.val count)[k] = _ from get_padFirst row r.val count ⟨k, hk⟩]
  obtain hrow | rfl | ⟨hzeros, hbelow⟩ | hcount : k < r.val ∨ k = r.val ∨ r.val < k ∧ k < 56 ∨ 56 ≤ k := by omega
  · simp [hrow]
  · simp
  · have hregion : ¬ k < r.val ∧ k ≠ r.val ∧ ¬ 56 ≤ k ∧ k - r.val ≠ 0 ∧ k - r.val - 1 < 55 - r.val := by omega
    simp [List.getElem_append, List.getElem_cons, hregion]
  · have hregion : ¬ k < r.val ∧ k ≠ r.val ∧ 56 ≤ k ∧ k - r.val ≠ 0 ∧ ¬ k - r.val - 1 < 55 - r.val ∧
        k - r.val - 1 - (55 - r.val) = k - 56 := by omega
    simp [List.getElem_append, List.getElem_cons, hregion, h]

/-- With r >= 56 the first of two padding blocks has three regions: the buffered bytes, the mark and zeros. -/
theorem toList_padFirst_of_ge (h : 56 ≤ r.val) :
    (padFirst row r.val count).toList =
      row.toList.take r.val ++ [0x80#8] ++ List.replicate (63 - r.val) 0x00#8 := by
  refine List.ext_getElem (by simp; omega) fun k hk _ => ?_
  rw [Vector.length_toList] at hk
  rw [Vector.getElem_toList, show (padFirst row r.val count)[k] = _ from get_padFirst row r.val count ⟨k, hk⟩]
  obtain hrow | rfl | hzeros : k < r.val ∨ k = r.val ∨ r.val < k := by omega
  · simp [hrow]
  · simp
  · have hregion : ¬ k < r.val ∧ k ≠ r.val ∧ ¬ r.val < 56 ∧ k - r.val ≠ 0 := by omega
    simp [List.getElem_append, List.getElem_cons, hregion]

theorem toList_padSecond :
    (padSecond count).toList = List.replicate 56 0x00#8 ++ (List.range 8).map (be64 count) := by
  refine List.ext_getElem (by simp) fun k hk _ => ?_
  rw [Vector.length_toList] at hk
  rw [Vector.getElem_toList, show (padSecond count)[k] = _ from get_padSecond count ⟨k, hk⟩]
  simp [List.getElem_append, -List.reduceReplicate]

end

/-- The final state of R150 as one output transformation of the chaining value after the padding blocks. -/
theorem finalState_eq (s : State) :
    s.finalState =
      let first := compress (s.tsReg 0) (pack (Vector.ofFn fun l => padFirst (s.bufRow l) s.fill.val s.finalCount))
      outX (if s.fill.val < 56 then first else compress first (pack (Vector.replicate 4 (padSecond s.finalCount)))) := by
  rw [State.finalState]
  exact (apply_ite outX (s.fill.val < 56) _ _).symm

/-! ### DIGEST as RESET, UPDATE and FINALR (R153) -/

section
variable {s : State} (hf : s.fault = .none)
include hf

/-- UPDATE after `InstReset` leaves the hasher that DIGEST finalizes. -/
theorem execUpdate_instReset (hlen : s.lengths ≠ .unequal) (hread : s.canAbsorb = true) :
    execUpdate s.instReset = .next s.hashed := by
  cases h : s.lengths with
  | unequal => exact absurd h hlen
  | allZero =>
    rw [State.hashed, h]
    exact execUpdate_of_allZero (s := s.instReset) hf rfl h
  | common n =>
    rw [State.hashed, h]
    exact execUpdate_of_canAbsorb (s := s.instReset) hf rfl h hread

theorem execFinalr_hashed (hwrite : s.canWrite s.dst 128 = true) :
    execFinalr s.hashed = .next s.hashed.finalizeAndStore.instReset := by
  obtain ⟨-, hfin, hfault, ⟨-, -, hunwritable, -⟩, -, -⟩ := hashed_frame s
  refine execFinalr_of_canWrite (hfault.trans hf) hfin ?_
  rw [dst_hashed, State.canWrite, hunwritable]
  exact hwrite

end

/-! ### FIN and the commands of files 40 to 43 (R155) -/

/-- The state with FIN set to `b`. -/
def withFin (s : State) (b : Bool) : State := { s with fin := b }

/-- Which stores of a command broken off have happened does not depend on FIN. -/
theorem storeTaken_withFin (s : State) (b : Bool) (n i : Nat) (m : List Host.Cell) (stores : List (Word × Byte)) :
    (withFin s b).storeTaken n i m stores = s.storeTaken n i m stores := by
  induction stores generalizing i m with
  | nil => rfl
  | cons c rest ih =>
    rw [State.storeTaken, State.storeTaken, ih]
    rfl

theorem breakOff_withFin (s : State) (b : Bool) (stores : List (Word × Byte)) :
    (withFin s b).breakOff stores = withFin (s.breakOff stores) b := by
  rw [State.breakOff, storeTaken_withFin]
  rfl

theorem unpackStores_withFin (s : State) (b : Bool) (k : TsReg) : (withFin s b).unpackStores k = s.unpackStores k := rfl

/-- The meaning `k` neither reads nor writes FIN. -/
def FinBlind (k : State → Result) : Prop :=
  ∀ (s t : State) (b : Bool), k s = .next t → k (withFin s b) = .next (withFin t b)

theorem finBlind_next {f : State → State} (h : ∀ s b, f (withFin s b) = withFin (f s) b) :
    FinBlind fun s => .next (f s) := fun s t b hk => by
  cases hk
  exact congrArg Host.Outcome.next (h s b)

theorem finBlind_ite {p : State → Bool} {k k' : State → Result} (hp : ∀ s b, p (withFin s b) = p s)
    (h : FinBlind k) (h' : FinBlind k') : FinBlind fun s => if p s then k s else k' s := fun s t b hk => by
  dsimp only at hk ⊢
  rw [hp]
  split at hk
  · rw [if_pos ‹_›]
    exact h s t b hk
  · rw [if_neg ‹_›]
    exact h' s t b hk

theorem finBlind_running {k : State → Result} (h : FinBlind k) : FinBlind fun s => running s (k s) := fun s t b hk => by
  obtain ⟨hf, rfl⟩ | ⟨hf, hk⟩ := running_cases hk
  · exact running_faulted (s := withFin t b) hf _
  · exact (running_none (s := withFin s b) hf _).trans (h s t b hk)

theorem finBlind_toTs {F : State → TState} (d : TsReg) (hF : ∀ s b, F (withFin s b) = F s) :
    FinBlind fun s => toTs d (F s) s :=
  finBlind_running (finBlind_next fun s b => by rw [hF]; rfl)

theorem finBlind_withRound (rnd : BitVec 4) {k : State → Result} (h : FinBlind k) : FinBlind fun s => withRound rnd s (k s) :=
  finBlind_ite (fun _ _ => rfl) h (finBlind_running (finBlind_next fun _ _ => rfl))

theorem finBlind_execPack (d : TsReg) : FinBlind (execPack d) :=
  finBlind_running (finBlind_ite (fun _ _ => rfl) (finBlind_next fun _ _ => rfl) (finBlind_next fun _ _ => rfl))

theorem finBlind_execUnpack (k : TsReg) : FinBlind (execUnpack k) := by
  refine finBlind_running (finBlind_ite (fun _ _ => rfl) (finBlind_next fun s b => ?stored) (finBlind_next fun s b => ?broken))
  case stored =>
    rw [unpackStores_withFin]
    -- With the 256 stores kept folded, `rfl` compares the fields and does not run the stores.
    generalize s.unpackStores k = stores
    rfl
  case broken =>
    rw [unpackStores_withFin, breakOff_withFin]
    rfl

/-- Every command but those of 44_streaming.md. -/
theorem finBlind_exec {i : Instr} (hi : i ∉ [Instr.reset, .update, .final, .finalr, .digest]) : FinBlind (exec i) := by
  cases i with
  | reset | update | final | finalr | digest => simp at hi
  | pack d => exact finBlind_execPack d
  | unpack k => exact finBlind_execUnpack k
  | arcp d _ rnd | arcq d _ rnd => exact finBlind_withRound rnd (finBlind_toTs d fun _ _ => rfl)
  | subb d | shbp d | shbq d | mixb d | xors d | permp d | permq d | cmpr d | outx d => exact finBlind_toTs d fun _ _ => rfl

end Sys2Proof.Laws
end

section
/-! PROOFS. The statements about the commands of 44_streaming.md other than the absorption of data: RESET (R142), UPDATE without data
(R144), padding and finalization (R148 to R154), phase Finalized (R155) and E_BUS (R184, R185 b). -/

namespace Sys2Proof.Proofs

open Sys2Proof.Machine Sys2Proof.Laws

/-- Settles O41: RESET is `InstReset`, whatever the phase. -/
theorem resetResult : Obligations.ResetResult := fun s hf =>
  ⟨_, execReset_none hf, freshHasher_instReset s, status_of_freshHasher (freshHasher_instReset s) hf, sameTsBut_instReset s, rfl,
    sameSurroundings_refl s, rfl, fun _ => rfl⟩

/-- Settles O42: with every LEN zero the phase check of UPDATE is all that is left. -/
theorem emptyUpdateIsNoOp : Obligations.EmptyUpdateIsNoOp := fun s hf hlen =>
  ⟨fun hfin => execUpdate_of_allZero hf hfin ((lengths_allZero_iff s).mpr hlen), execUpdate_of_fin hf⟩

/-! ### E_BUS (R184, R185 b) -/

/-- Settles O21: FINAL and FINALR are broken off with their digests to store, DIGEST with 128 bytes of its own. -/
theorem finalizeBusFault : Obligations.FinalizeBusFault := by
  refine ⟨fun i s hi hf hfin hrefused => ?final, fun s hf hlen hrefused => ?digest⟩
  case final =>
    have hwrite := (canWrite_eq_false_iff s s.dst digest_size_le).mpr hrefused
    have hexec : exec i s = .next (hasherBus s.digestStores s) := by
      obtain rfl | rfl := hi
      · exact execFinal_of_not_canWrite hf hfin hwrite
      · exact execFinalr_of_not_canWrite hf hfin hwrite
    exact ⟨_, hexec, rfl, sameTsBut_hasherBus _ s, sameSurroundings_exec hexec, read_hasherBus_digests s s.finalState⟩
  case digest =>
    have hadmission : (s.canAbsorb && s.canWrite s.dst 128) = false := by
      rw [Bool.and_eq_false_iff, canAbsorb_eq_false_iff, canWrite_eq_false_iff s s.dst digest_size_le]
      exact hrefused.symm
    have hexec : exec .digest s = .next (hasherBus s.digestBrokenStores s) := execDigest_of_refused hf hlen hadmission
    refine ⟨_, hexec, rfl, sameTsBut_hasherBus _ s, sameSurroundings_exec hexec,
      sameMemoryOutside_of_digesting (by simp) hexec, fun hread a => ?_⟩
    rw [State.digestBrokenStores, if_pos ((canAbsorb_iff s).mpr hread), digestStores_hashed]
    exact read_hasherBus_digests s s.hashed.finalState a

/-! ### Padding and finalization (R148 to R155) -/

/-- Settles O44: each block is compared with its byte string region by region. -/
theorem paddingBlocks : Obligations.PaddingBlocks :=
  ⟨fun row r count => ⟨toList_padFirst_of_lt row r count, toList_padFirst_of_ge row r count⟩, toList_padSecond, fun _ => rfl⟩

/-- Settles O45: admitted byte by byte, FINAL is `Finalize` and `StoreDigests`, and then sets FIN. -/
theorem finalResult : Obligations.FinalResult := by
  intro s hf hfin hwrite
  have hexec : exec .final s = .next { s.finalizeAndStore with fin := true } :=
    execFinal_of_canWrite hf hfin ((canWrite_iff s s.dst digest_size_le).mpr hwrite)
  have hstate : State.tsReg { s.finalizeAndStore with fin := true } 0 = s.finalState := tsReg_finalizeAndStore s 0
  refine ⟨_, hexec, ⟨rfl, hstate.trans (finalState_eq s)⟩, fill_finalizeAndStore s, rfl, status_of_fin rfl hf, ?digests,
    sameMemoryOutside_of_digesting (by simp) hexec, rfl, rfl, sameTsBut_finalizeAndStore s, rfl, sameSurroundings_exec hexec, rfl⟩
  case digests =>
    rw [hstate]
    exact digestsStored_storeAll s _ s.finalState (mem_finalizeAndStore s)

/-- Settles O46: FINALR is FINAL's state with `InstReset` done, which drops the FIN that FINAL sets. -/
theorem finalrResult : Obligations.FinalrResult := by
  intro s hf hfin hwrite
  have hadmitted := (canWrite_iff s s.dst digest_size_le).mpr hwrite
  have hexec : exec .finalr s = .next s.finalizeAndStore.instReset := execFinalr_of_canWrite hf hfin hadmitted
  have hfresh := freshHasher_instReset s.finalizeAndStore
  refine ⟨_, _, hexec, execFinal_of_canWrite hf hfin hadmitted, execReset_none hf, hfresh, status_of_freshHasher hfresh hf, rfl,
    ?digests, sameMemoryOutside_of_digesting (by simp) hexec,
    sameTsBut_trans (sameTsBut_finalizeAndStore s) (sameTsBut_instReset _), rfl, sameSurroundings_exec hexec, rfl⟩
  case digests =>
    rw [show State.tsReg { s.finalizeAndStore with fin := true } 0 = s.finalState from tsReg_finalizeAndStore s 0]
    exact digestsStored_storeAll s _ s.finalState (mem_finalizeAndStore s)

/-- Settles O47: after RESET, UPDATE hashes what DIGEST hashes, and FINALR ends both. -/
theorem digestResult : Obligations.DigestResult := by
  intro s hf hlen hread hwrite
  have hreadable := (canAbsorb_iff s).mpr hread
  have hwritable := (canWrite_iff s s.dst digest_size_le).mpr hwrite
  have hexec : exec .digest s = .next s.hashed.finalizeAndStore.instReset :=
    execDigest_of_admitted hf hlen hreadable hwritable
  have hsequence : execAll [.reset, .update, .finalr] s = .next s.hashed.finalizeAndStore.instReset := by
    simp only [execAll, exec, execReset_none hf, execUpdate_instReset hf hlen hreadable, execFinalr_hashed hf hwritable]
  obtain ⟨hts, -, hfault, -, hdraws, -⟩ := hashed_frame s
  have hfresh := freshHasher_instReset s.hashed.finalizeAndStore
  exact ⟨_, hexec, hsequence, hfresh, status_of_freshHasher hfresh (hfault.trans hf),
    sameMemoryOutside_of_digesting (by simp) hexec,
    sameTsBut_trans hts (sameTsBut_trans (sameTsBut_finalizeAndStore _) (sameTsBut_instReset _)), hfault,
    sameSurroundings_exec hexec, hdraws⟩

/-- DIGEST does not look at the phase: its outcomes are E_LEN, a fresh hasher, and E_BUS. -/
theorem digest_legal_in_every_phase {s : State} (hf : s.fault = .none) :
    ∃ t, exec .digest s = .next t ∧ t.fault ≠ .phase ∧ (t.fault = .none → FreshHasher t) := by
  obtain ⟨t, ht⟩ := completes_exec .digest s
  obtain ⟨-, rfl⟩ | ⟨-, -, rfl⟩ | ⟨-, -, rfl⟩ := execDigest_cases hf ht
  · exact ⟨_, ht, by simp, fun h => by cases h⟩
  · obtain ⟨-, -, hfault, -⟩ := hashed_frame s
    exact ⟨_, ht, by simp [hfault, hf], fun _ => freshHasher_instReset _⟩
  · exact ⟨_, ht, by simp [hasherBus], fun h => by cases h⟩

/-- Settles O48: only UPDATE, FINAL and FINALR check the phase, RESET forgets FIN, and the commands of files 40 to 43 neither read
nor write it. -/
theorem finalizedPhase : Obligations.FinalizedPhase := by
  refine fun s hf hfin => ⟨?checked, ?legal, ?reset, fun i hi _ => ?blind⟩
  case checked =>
    simp only [List.forall_mem_cons]
    exact ⟨execUpdate_of_fin hf hfin, execFinal_of_fin hf hfin, execFinalr_of_fin hf hfin, List.forall_mem_nil _⟩
  case legal =>
    simp only [List.forall_mem_cons]
    exact ⟨⟨_, execReset_none hf, by simp [hf], fun _ => freshHasher_instReset s⟩, digest_legal_in_every_phase hf, List.forall_mem_nil _⟩
  case reset => exact (execReset_none hf).trans (execReset_none (s := { s with fin := false }) hf).symm
  case blind =>
    obtain ⟨t, ht⟩ := completes_exec i (withFin s false)
    have hself : withFin (withFin s false) true = s := by
      rw [← hfin]
      rfl
    exact ⟨t, ht, hself ▸ finBlind_exec hi (withFin s false) t true ht⟩

end Sys2Proof.Proofs
end

section
/-! SUPPORT. UPDATE with data: the closed form of what `Absorb` leaves, position by position (R145, R146), what UPDATE broken off
can have changed (R185 b), and a call taken up where another stopped (R174). -/

namespace Sys2Proof.Laws

open Sys2Proof.Machine

/-! ### Buffer rows position by position (R145) -/

/-- The position of the last stream byte before q that goes to buffer position i. -/
theorem rowByte_of_active {s : State} {l : Lane} (hl : s.active l = true) {q p : Nat} (hp : p < q) (hlast : q ≤ p + 64) :
    rowByte s l q ⟨p % 64, Nat.mod_lt p (by decide)⟩ = s.streamByte l p := by
  have hpos : 64 * ((q + 63 - p % 64) / 64 - 1) + p % 64 = p := by omega
  have hlow : p % 64 < q := by omega
  rw [rowByte, if_pos ⟨hl, hlow⟩, hpos]

/-- A buffer position that no stream byte from FILL on goes to keeps its byte. -/
theorem rowByte_of_untouched {s : State} {l : Lane} {q : Nat} {i : Fin 64}
    (hi : ∀ p, s.fill.val ≤ p → p < q → p % 64 ≠ i.val) : rowByte s l q i = (s.bufRow l)[i] := by
  rw [rowByte]
  split
  next h =>
    obtain ⟨-, hlt⟩ := h
    have hfill : i.val < s.fill.val := by
      by_contra hge
      exact hi i.val (by omega) hlt (Nat.mod_eq_of_lt i.isLt)
    have hblock : (q + 63 - i.val) / 64 - 1 = 0 := by
      have hf := s.fill.isLt
      by_contra hne
      exact hi (64 * ((q + 63 - i.val) / 64 - 1) + i.val) (by omega) (by omega) (by omega)
    rw [hblock, Nat.mul_zero, Nat.zero_add, streamByte_low s l i hfill]
  next => rfl

theorem rowByte_of_absent {s : State} {l : Lane} (hl : s.active l = false) (q : Nat) (i : Fin 64) :
    rowByte s l q i = (s.bufRow l)[i] :=
  if_neg fun h => Bool.eq_false_iff.mp hl h.1

/-! ### What completed UPDATE leaves (R143, R145, R146) -/

theorem chainAfter_markAbsent (s : State) (n : Nat) : s.markAbsent.chainAfter n = s.chainAfter n := by
  induction n with
  | zero => rfl
  | succ n ih =>
    rw [State.chainAfter, State.chainAfter, ih]
    rfl

/-- A buffer row is determined by its bytes. -/
theorem block_ext_get {row row' : Block} (h : ∀ i : Fin 64, row[i] = row'[i]) : row = row' := by
  ext i hi : 1
  exact h ⟨i, hi⟩

/-! ### What UPDATE broken off leaves (R185 b) -/

theorem get_bufRow_updateBus (len : Nat) (s : State) (l : Lane) (i : Fin 64) :
    ((updateBus len s).bufRow l)[i] =
      if s.active l && s.touches len i then Config.freeBuf s.draws l i else (s.bufRow l)[i] := by
  simp [State.bufRow, updateBus]

theorem touches_eq_false {s : State} {len : Nat} {i : Fin 64}
    (hi : ∀ p, s.fill.val ≤ p → p < s.fill.val + len → p % 64 ≠ i.val) : s.touches len i = false := by
  have hf := s.fill.isLt
  refine decide_eq_false fun hlt => ?_
  exact hi (s.fill.val + (i.val + 64 - s.fill.val) % 64) (by omega) (by omega) (by omega)

theorem getLsbD_lskip_updateBus (len : Nat) {s : State} {l : Lane} (hl : s.active l = true) :
    (updateBus len s).lskip.getLsbD l.val = s.lskip.getLsbD l.val := by
  have habsent : s.absentLanes.getLsbD l.val = false := by rw [getLsbD_absentLanes, hl, Bool.not_true]
  simp only [updateBus, BitVec.getLsbD_or, BitVec.getLsbD_and, BitVec.getLsbD_not, habsent, decide_eq_true l.isLt, Bool.not_false,
    Bool.and_true, Bool.and_false, Bool.or_false]

/-! ### A call taken up where another stopped (R174) -/

section
variable (s : State) (p : Lane → Word) (n : Word)

theorem ptr_withSources (l : Lane) : (s.withSources p n).ptr l = p l := by
  fin_cases l <;> rfl

theorem len_withSources (l : Lane) : (s.withSources p n).len l = n := by
  fin_cases l <;> rfl

theorem active_withSources (l : Lane) : (s.withSources p n).active l = decide (n ≠ 0#64) := by
  rw [State.active, len_withSources]

end

/-- A turn at `pos` does what a turn at `off + pos` does when each lane's source starts `off` bytes before. -/
theorem absorbTurn_withSources {u : State} {p : Lane → Word} {off : Nat} {n : Word} (hn : n ≠ 0#64)
    (hptr : ∀ l, u.ptr l = p l + BitVec.ofNat 64 off) (hactive : ∀ l, u.active l = true) (pos k : Nat) :
    (u.withSources p n).absorbTurn (off + pos) k = (u.absorbTurn pos k).withSources p n := by
  have hrows : (u.withSources p n).absorbRows (off + pos) k = u.absorbRows pos k := by
    rw [State.absorbRows, State.absorbRows]
    congr 1
    funext l
    rw [active_withSources, decide_eq_true hn, hactive, ptr_withSources, hptr, offset_add]
    rfl
  have hfill : (u.withSources p n).fill = u.fill := rfl
  rw [State.absorbTurn, State.absorbTurn, hrows, hfill]
  split <;> rfl

/-- The loop over `len` bytes from `pos` on does what the loop does from `off + pos` on when each lane's source starts `off`
bytes before. -/
theorem absorbFrom_withSources {p : Lane → Word} {off len : Nat} {n : Word} (hn : 0 < len → n ≠ 0#64) (turns pos : Nat)
    (u : State) (hptr : ∀ l, u.ptr l = p l + BitVec.ofNat 64 off) (hactive : 0 < len → ∀ l, u.active l = true) :
    (absorbFrom len turns pos u).withSources p n = absorbFrom (off + len) turns (off + pos) (u.withSources p n) := by
  induction turns generalizing pos u with
  | zero => rfl
  | succ turns ih =>
    rw [absorbFrom, absorbFrom]
    by_cases hpos : pos < len
    · have hlen : 0 < len := by omega
      obtain ⟨-, -, -, -, ⟨hx, -⟩, -, -⟩ := absorbTurn_frame u pos (min (64 - u.fill.val) (len - pos))
      rw [if_pos hpos, if_pos (by omega), Nat.add_sub_add_left, ih]
      · rw [Nat.add_assoc, ← absorbTurn_withSources (hn hlen) hptr (hactive hlen)]
        rfl
      · intro l
        rw [State.ptr, hx]
        exact hptr l
      · intro _ l
        rw [State.active, State.len, hx]
        exact hactive hlen l
    · rw [if_neg hpos, if_neg (by omega)]

theorem ofNat_ne_zero {n : Nat} (hn : 0 < n) (hlt : n < 2 ^ 64) : BitVec.ofNat 64 n ≠ 0#64 := by
  bv_omega

theorem active_withSources_ofNat (s : State) (p : Lane → Word) {n : Nat} (hlt : n < 2 ^ 64) (hn : 0 < n) (l : Lane) :
    (s.withSources p (BitVec.ofNat 64 n)).active l = true :=
  (active_withSources s p _ l).trans (decide_eq_true (ofNat_ne_zero hn hlt))

/-- What `Absorb` does with its first `n1` bytes does not depend on the length in the operand registers. -/
theorem absorb_withSources (s : State) (p : Lane → Word) {n1 n : Nat} (hle : n1 ≤ n) (hlt : n < 2 ^ 64) :
    ((s.withSources p (BitVec.ofNat 64 n1)).absorb n1).withSources p (BitVec.ofNat 64 n)
      = (s.withSources p (BitVec.ofNat 64 n)).absorb n1 := by
  have hloop := absorbFrom_withSources (p := p) (off := 0) (len := n1) (n := BitVec.ofNat 64 n)
    (fun hpos => ofNat_ne_zero (by omega) hlt) ((s.fill.val + n1) / 64 + 1) 0 (s.withSources p (BitVec.ofNat 64 n1))
    (fun l => by rw [ptr_withSources, BitVec.add_zero]) (active_withSources_ofNat s p (by omega))
  rwa [Nat.zero_add, Nat.zero_add] at hloop

/-- With `A` the state that the first n1 bytes leave, absorbing the n2 bytes behind them leaves what absorbing all n1 + n2 leaves,
but for the operand registers. -/
theorem absorb_add {s A : State} {p : Lane → Word} {n1 n2 : Nat} (hlt : n1 + n2 < 2 ^ 64)
    (hA : A = (s.withSources p (BitVec.ofNat 64 n1)).absorb n1) :
    ((A.withSources (fun l => p l + BitVec.ofNat 64 n1) (BitVec.ofNat 64 n2)).absorb n2).withSources p (BitVec.ofNat 64 (n1 + n2))
      = (s.withSources p (BitVec.ofNat 64 (n1 + n2))).absorb (n1 + n2) := by
  have hfirst : A.withSources p (BitVec.ofNat 64 (n1 + n2)) = (s.withSources p (BitVec.ofNat 64 (n1 + n2))).absorb n1 := by
    rw [hA]
    exact absorb_withSources s p (Nat.le_add_right n1 n2) hlt
  have hrest := absorbFrom_withSources (p := p) (off := n1) (len := n2) (n := BitVec.ofNat 64 (n1 + n2))
    (fun hpos => ofNat_ne_zero (by omega) hlt) ((A.fill.val + n2) / 64 + 1) 0
    (A.withSources (fun l => p l + BitVec.ofNat 64 n1) (BitVec.ofNat 64 n2))
    (fun l => by rw [ptr_withSources]) (active_withSources_ofNat A _ (by omega))
  have habsorbed : Absorbed (s.withSources p (BitVec.ofNat 64 (n1 + n2))) (A.withSources p (BitVec.ofNat 64 (n1 + n2))) n1 := by
    rw [hfirst]
    exact absorbed_absorb _ n1
  have hturns : (A.fill.val + (n1 + n2 - n1)) / 64 < (A.fill.val + n2) / 64 + 1 := by omega
  exact hrest.trans (absorbed_unique (absorbed_from _ _ habsorbed (Nat.le_add_right n1 n2) hturns) (absorbed_absorb _ _))

/-! ### UPDATE with one length in all four lanes (R174) -/

theorem absorb_zero (s : State) : s.absorb 0 = s := by
  rw [State.absorb, absorbFrom, if_neg (Nat.lt_irrefl 0)]

/-- With all four lanes active there is no bit to set. -/
theorem markAbsent_of_active {s : State} (h : ∀ l, s.active l = true) : s.markAbsent = s := by
  have habsent : s.absentLanes = 0#4 := by
    rw [State.absentLanes, h, h, h, h]
    rfl
  rw [State.markAbsent, habsent, BitVec.or_zero]

/-- UPDATE with the same length in all four lanes absorbs, zero bytes as well as more (R144, R145). -/
theorem execUpdate_withSources {s : State} {p : Lane → Word} {n : Nat} (hf : s.fault = .none) (hfin : s.fin = false)
    (hn : n < 2 ^ 64) (hread : ∀ l, ∀ k < n, s.readable (p l + BitVec.ofNat 64 k) = true) :
    execUpdate (s.withSources p (BitVec.ofNat 64 n)) = .next ((s.withSources p (BitVec.ofNat 64 n)).absorb n) := by
  have hlen := len_withSources s p (BitVec.ofNat 64 n)
  have hlength : (BitVec.ofNat 64 n).toNat = n := (BitVec.toNat_ofNat n 64).trans (Nat.mod_eq_of_lt hn)
  obtain rfl | hpos := Nat.eq_zero_or_pos n
  · rw [absorb_zero]
    exact execUpdate_of_allZero (s := s.withSources p 0#64) hf hfin ((lengths_allZero_iff _).mpr hlen)
  · have hactive := active_withSources_ofNat s p hn hpos
    have hcommon := (lengths_common_iff _ _).mpr ⟨⟨0, hactive 0⟩, fun l _ => hlen l⟩
    have hreadable : (s.withSources p (BitVec.ofNat 64 n)).canAbsorb = true := (canAbsorb_iff _).mpr fun l _ k hk => by
      rw [hlen, hlength] at hk
      rw [ptr_withSources]
      exact hread l k hk
    have hexec := execUpdate_of_canAbsorb (s := s.withSources p (BitVec.ofNat 64 n)) hf hfin hcommon hreadable
    rwa [markAbsent_of_active hactive, hlength] at hexec

end Sys2Proof.Laws
end

section
/-! PROOFS. The statements about UPDATE with data: what it leaves (R143, R145, R146), what E_BUS leaves (R184, R185 b), and a call
split in two (R174). -/

namespace Sys2Proof.Proofs

open Sys2Proof.Machine Sys2Proof.Laws

/-- Settles O20: the positions and the LSKIP bits that `updateBus` draws afresh are among those a completed UPDATE writes. -/
theorem updateBusFault : Obligations.UpdateBusFault := by
  rintro s n hf hfin hlen ⟨l, hl, hrefused⟩
  have hread : s.canAbsorb = false := (canAbsorb_eq_false_iff s).mpr ⟨l, hl, by rwa [len_of_common hlen hl]⟩
  have hexec : exec .update s = .next (updateBus n.toNat s) := execUpdate_of_not_canAbsorb hf hfin hlen hread
  refine ⟨_, hexec, rfl, sameTsBut_updateBus _ s, hfin, sameSurroundings_exec hexec, fun _ => rfl,
    fun l hl => block_ext_get fun i => ?absent, fun l i hi => ?untouched, fun l hl => getLsbD_lskip_updateBus _ hl⟩
  case absent => rw [get_bufRow_updateBus, hl, Bool.false_and, if_neg Bool.false_ne_true]
  case untouched => rw [get_bufRow_updateBus, touches_eq_false hi, Bool.and_false, if_neg Bool.false_ne_true]

/-- Settles O43: admitted byte by byte, UPDATE marks the absent lanes and absorbs, and `Absorbed` is the closed form of that. -/
theorem updateAbsorbs : Obligations.UpdateAbsorbs := by
  intro s n hf hfin hlen hread
  have hreadable : s.canAbsorb = true :=
    (canAbsorb_iff s).mpr fun l hl => by simpa only [len_of_common hlen hl] using hread l hl
  have hexec : exec .update s = .next (s.markAbsent.absorb n.toNat) := execUpdate_of_canAbsorb hf hfin hlen hreadable
  obtain ⟨hfill, hblkcnt, hchain, hrow, hts, hfin', -, hfault, hsame, hdraws, hmem⟩ := absorbed_absorb s.markAbsent n.toNat
  refine ⟨_, hexec, hchain.trans (chainAfter_markAbsent s _), hblkcnt, hfill, fun l hl p _ hp hlast => ?last,
    fun l i hi => (hrow l i).trans (rowByte_of_untouched hi),
    fun l hl => block_ext_get fun i => (hrow l i).trans (rowByte_of_absent hl _ i),
    getLsbD_lskip_absorb_markAbsent s n.toNat, hts, hfin', hfault, hsame, hdraws, fun a => by rw [hmem]; rfl⟩
  case last =>
    rw [getElem!_row _ ⟨p % 64, Nat.mod_lt p (by decide)⟩, hrow]
    exact rowByte_of_active (s := s.markAbsent) hl hp hlast

/-- Settles O50: an UPDATE with one length absorbs, zero bytes as well as more, and the loop of the second piece goes on where
that of the first stopped. -/
theorem splitUpdateEquivalence : Obligations.SplitUpdateEquivalence := by
  intro s p n1 n2 hf hfin hlt hread
  obtain ⟨-, hfin', -, hfault, ⟨-, hunreadable, -⟩, -, -⟩ := absorb_frame (s.withSources p (BitVec.ofNat 64 n1)) n1
  refine ⟨_, _, _, execUpdate_withSources hf hfin (by omega) fun l k hk => hread l k (by omega),
    execUpdate_withSources (hfault.trans hf) (hfin'.trans hfin) (by omega) fun l k hk => ?rest,
    execUpdate_withSources hf hfin hlt hread, absorb_add hlt rfl⟩
  case rest =>
    rw [offset_add, State.readable, hunreadable]
    exact hread l (n1 + k) (by omega)

end Sys2Proof.Proofs
end

section
/-! SUPPORT. The commands of 44_streaming.md neither read nor write TS[1..3] (R175): each operation they are made of commutes with
a write to one of those registers. -/

namespace Sys2Proof.Laws

open Sys2Proof.Machine

/-- Which stores of a command broken off have happened does not depend on a TS register. -/
theorem storeTaken_setTs (s : State) (k : TsReg) (S : TState) (n i : Nat) (m : List Host.Cell) (stores : List (Word × Byte)) :
    (s.setTs k S).storeTaken n i m stores = s.storeTaken n i m stores := by
  induction stores generalizing i m with
  | nil => rfl
  | cons c rest ih =>
    rw [State.storeTaken, State.storeTaken, ih]
    rfl

theorem breakOff_setTs (s : State) (k : TsReg) (S : TState) (stores : List (Word × Byte)) :
    (s.setTs k S).breakOff stores = (s.breakOff stores).setTs k S := by
  rw [State.breakOff, storeTaken_setTs]
  rfl

section
variable {k : TsReg} (hk : k ≠ 0) (s : State) (S : TState)
include hk

/-- TS[0] written after another register is TS[0] written before it. -/
theorem setTs_set_zero (H : TState) : (s.setTs k S).ts.set 0 H = (s.ts.set 0 H).set k.val S :=
  Vector.set_comm _ _ fun h => hk (Fin.ext h)

theorem chain_setTs : (s.setTs k S).chain = s.chain := (tsReg_setTs s k 0 S).trans (if_neg hk.symm)

theorem instReset_setTs : (s.setTs k S).instReset = s.instReset.setTs k S := by
  rw [State.instReset, setTs_set_zero hk]
  rfl

theorem absorbTurn_setTs (pos n : Nat) : (s.setTs k S).absorbTurn pos n = (s.absorbTurn pos n).setTs k S := by
  have hrows : (s.setTs k S).absorbRows pos n = s.absorbRows pos n := rfl
  rw [State.absorbTurn, State.absorbTurn, hrows, chain_setTs hk, setTs_set_zero hk, fill_setTs]
  split <;> rfl

theorem absorbFrom_setTs (len turns pos : Nat) : absorbFrom len turns pos (s.setTs k S) = (absorbFrom len turns pos s).setTs k S := by
  induction turns generalizing pos s with
  | zero => rfl
  | succ turns ih =>
    rw [absorbFrom, absorbFrom, absorbTurn_setTs hk, ih]
    split <;> rfl

theorem absorb_setTs (len : Nat) : (s.setTs k S).absorb len = (s.absorb len).setTs k S := absorbFrom_setTs hk s S _ _ _

theorem hashed_setTs : (s.setTs k S).hashed = s.hashed.setTs k S := by
  have hlengths : (s.setTs k S).lengths = s.lengths := rfl
  rw [State.hashed, State.hashed, hlengths, instReset_setTs hk]
  split
  · exact absorb_setTs hk s.instReset.markAbsent S _
  · rfl
  · rfl

theorem finalState_setTs : (s.setTs k S).finalState = s.finalState := by
  rw [State.finalState, chain_setTs hk]
  rfl

theorem digestStores_setTs : (s.setTs k S).digestStores = s.digestStores := by
  rw [State.digestStores, finalState_setTs hk]
  rfl

theorem finalizeAndStore_setTs : (s.setTs k S).finalizeAndStore = s.finalizeAndStore.setTs k S := by
  rw [State.finalizeAndStore, State.finalizeAndStore, digestStores_setTs hk, State.finalized, setTs_set_zero hk, finalState_setTs hk]
  -- With the 128 stores kept folded, `rfl` compares the fields and does not run the stores.
  generalize s.digestStores = stores
  rfl

theorem digestBrokenStores_setTs : (s.setTs k S).digestBrokenStores = s.digestBrokenStores := by
  rw [State.digestBrokenStores, hashed_setTs hk, digestStores_setTs hk]
  rfl

theorem updateBus_setTs (len : Nat) : updateBus len (s.setTs k S) = (updateBus len s).setTs k S := by
  rw [updateBus, breakOff_setTs, setTs_set_zero hk]
  rfl

theorem hasherBus_setTs (stores : List (Word × Byte)) : hasherBus stores (s.setTs k S) = (hasherBus stores s).setTs k S := by
  rw [hasherBus, breakOff_setTs, State.freeHasher, setTs_set_zero hk]
  rfl

end

/-! ### The commands on an engine without a fault (R175) -/

theorem execUpdate_of_unequal {s : State} (hf : s.fault = .none) (hfin : s.fin = false) (hlen : s.lengths = .unequal) :
    execUpdate s = .next { s with fault := .len } := by
  rw [execUpdate, running_none hf, if_neg (Bool.eq_false_iff.mp hfin), hlen, raise]

theorem execDigest_of_unequal {s : State} (hf : s.fault = .none) (hlen : s.lengths = .unequal) :
    execDigest s = .next { s with fault := .len } := by
  rw [execDigest, running_none hf, if_pos hlen, raise]

section
variable {k : TsReg} (hk : k ≠ 0) {s t : State} (S : TState) (hf : s.fault = .none)
include hk hf

theorem execReset_setTs (h : execReset s = .next t) : execReset (s.setTs k S) = .next (t.setTs k S) := by
  rw [execReset_none (s := s.setTs k S) hf, instReset_setTs hk, execReset_eq hf h]

theorem execUpdate_setTs (h : execUpdate s = .next t) : execUpdate (s.setTs k S) = .next (t.setTs k S) := by
  obtain ⟨hfin, rfl⟩ | ⟨hfin, hlen, rfl⟩ | ⟨hfin, hlen, rfl⟩ | ⟨n, hfin, hlen, ⟨hread, rfl⟩ | ⟨hread, rfl⟩⟩ :=
    execUpdate_cases hf h
  · exact execUpdate_of_fin (s := s.setTs k S) hf hfin
  · exact execUpdate_of_unequal (s := s.setTs k S) hf hfin hlen
  · exact execUpdate_of_allZero (s := t.setTs k S) hf hfin hlen
  · rw [execUpdate_of_canAbsorb (s := s.setTs k S) hf hfin hlen hread, ← absorb_setTs hk]
    rfl
  · rw [execUpdate_of_not_canAbsorb (s := s.setTs k S) hf hfin hlen hread, updateBus_setTs hk]

theorem execFinal_setTs (h : execFinal s = .next t) : execFinal (s.setTs k S) = .next (t.setTs k S) := by
  obtain ⟨hfin, rfl⟩ | ⟨hfin, hwrite, rfl⟩ | ⟨hfin, hwrite, rfl⟩ := execFinal_cases hf h
  · exact execFinal_of_fin (s := s.setTs k S) hf hfin
  · rw [execFinal_of_canWrite (s := s.setTs k S) hf hfin hwrite, finalizeAndStore_setTs hk]
    rfl
  · rw [execFinal_of_not_canWrite (s := s.setTs k S) hf hfin hwrite, digestStores_setTs hk, hasherBus_setTs hk]

theorem execFinalr_setTs (h : execFinalr s = .next t) : execFinalr (s.setTs k S) = .next (t.setTs k S) := by
  obtain ⟨hfin, rfl⟩ | ⟨hfin, hwrite, rfl⟩ | ⟨hfin, hwrite, rfl⟩ := execFinalr_cases hf h
  · exact execFinalr_of_fin (s := s.setTs k S) hf hfin
  · rw [execFinalr_of_canWrite (s := s.setTs k S) hf hfin hwrite, finalizeAndStore_setTs hk, instReset_setTs hk]
  · rw [execFinalr_of_not_canWrite (s := s.setTs k S) hf hfin hwrite, digestStores_setTs hk, hasherBus_setTs hk]

theorem execDigest_setTs (h : execDigest s = .next t) : execDigest (s.setTs k S) = .next (t.setTs k S) := by
  obtain ⟨hlen, rfl⟩ | ⟨hlen, hadmitted, rfl⟩ | ⟨hlen, hrefused, rfl⟩ := execDigest_cases hf h
  · exact execDigest_of_unequal (s := s.setTs k S) hf hlen
  · obtain ⟨hread, hwrite⟩ := Bool.and_eq_true_iff.mp hadmitted
    rw [execDigest_of_admitted (s := s.setTs k S) hf hlen hread hwrite, hashed_setTs hk, finalizeAndStore_setTs hk,
      instReset_setTs hk]
  · rw [execDigest_of_refused (s := s.setTs k S) hf hlen hrefused, digestBrokenStores_setTs hk, hasherBus_setTs hk]

end

end Sys2Proof.Laws
end

section
/-! PROOFS. TS[1..3] are inputs of no streaming command (R175). -/

namespace Sys2Proof.Proofs

open Sys2Proof.Machine Sys2Proof.Laws

/-- Settles O49: a faulted engine changes nothing, and otherwise each command's checks do not look at TS[1..3] and its outcome
commutes with a write to one of them. -/
theorem streamIgnoresScratchRegisters : Obligations.StreamIgnoresScratchRegisters := by
  intro i hi k S s t hk h
  by_cases hf : s.fault = .none
  case neg =>
    rw [exec_faulted hf] at h
    cases h
    exact exec_faulted (s := s.setTs k S) hf i
  case pos =>
    cases i with
    | reset => exact execReset_setTs hk S hf h
    | update => exact execUpdate_setTs hk S hf h
    | final => exact execFinal_setTs hk S hf h
    | finalr => exact execFinalr_setTs hk S hf h
    | digest => exact execDigest_setTs hk S hf h
    | pack | unpack | arcp | arcq | subb | shbp | shbq | mixb | xors | permp | permq | cmpr | outx => simp at hi

end Sys2Proof.Proofs
end

section
/-! SUPPORT. The engine's digests against the single-lane function of R172: padding as bytes of a padded message, what a lane that has
absorbed a message does with more data (R145), and what finalizing it stores (R150, R154). -/

namespace Sys2Proof.Laws

open Sys2Proof.Machine

/-! ### The reference function on a message and its beginning (R172) -/

theorem blockAt_append (msg rest : List Byte) {i : Nat} (h : 64 * (i + 1) ≤ msg.length) :
    blockAt (msg ++ rest) i = blockAt msg i :=
  block_ext_get fun k => by
    simp only [blockAt, Fin.getElem_fin, Vector.getElem_ofFn]
    exact List.getD_append _ _ _ _ (by omega)

/-- What follows the first i blocks does not matter to the chaining value after them. -/
theorem chain1_append (msg rest : List Byte) {i : Nat} (h : 64 * i ≤ msg.length) :
    chain1 (msg ++ rest) i = chain1 msg i := by
  induction i with
  | zero => rfl
  | succ i ih => rw [chain1, chain1, ih (by omega), blockAt_append msg rest h]

/-! ### Padding (R148, R172) -/

theorem getD_padded_of_lt {msg : List Byte} {p : Nat} (h : p < msg.length) : (padded msg).getD p 0x00#8 = msg.getD p 0x00#8 := by
  rw [padded, List.append_assoc, List.append_assoc]
  exact List.getD_append _ _ _ _ h

/-- Behind the message stand the mark, zeros, and the count in the last 8 bytes. -/
theorem getD_padded_of_ge {msg : List Byte} {p : Nat} (h : msg.length ≤ p) (hp : p < 64 * blockCount msg.length) :
    (padded msg).getD p 0x00#8 =
      if p = msg.length then 0x80#8
      else if 64 * blockCount msg.length - 8 ≤ p then
        be64 (BitVec.ofNat 64 (blockCount msg.length)) (p - (64 * blockCount msg.length - 8))
      else 0x00#8 := by
  have hcount : msg.length + 9 ≤ 64 * blockCount msg.length := by
    unfold blockCount
    omega
  rw [padded, List.append_assoc, List.append_assoc, List.getD_append_right _ _ _ _ h]
  generalize blockCount msg.length = T at hp hcount ⊢
  obtain rfl | ⟨hzeros, hbelow⟩ | hlast : p = msg.length ∨ msg.length < p ∧ p < 64 * T - 8 ∨ 64 * T - 8 ≤ p := by omega
  · simp
  · have hregion : p ≠ msg.length ∧ ¬ 64 * T - 8 ≤ p ∧ p - msg.length ≠ 0 ∧
        p - msg.length - 1 < 64 * T - msg.length - 9 := by omega
    simp [List.getD_eq_getElem?_getD, List.getElem?_append, List.getElem?_cons, hregion]
  · have hregion : p ≠ msg.length ∧ p - msg.length ≠ 0 ∧ ¬ p - msg.length - 1 < 64 * T - msg.length - 9 ∧
        p - msg.length - 1 - (64 * T - msg.length - 9) = p - (64 * T - 8) ∧ p - (64 * T - 8) < 8 := by omega
    simp [List.getD_eq_getElem?_getD, List.getElem?_append, List.getElem?_cons, hregion, hlast]

/-- Counting the padding blocks: one behind the full blocks of the message, or two where the count does not fit the first. -/
theorem blockCount_eq (len : Nat) : blockCount len = len / 64 + if len % 64 < 56 then 1 else 2 := by
  unfold blockCount
  split <;> omega

theorem get_blockAt (pad : List Byte) (i : Nat) (k : Fin 64) : (blockAt pad i)[k] = pad.getD (64 * i + k.val) 0x00#8 := by
  simp [blockAt]

/-- The block with the message's last bytes is the first padding block of a row that begins with them. -/
theorem blockAt_padded_first {msg : List Byte} {row : Block}
    (hrow : ∀ k < msg.length % 64, row[k]! = msg.getD (64 * (msg.length / 64) + k) 0x00#8) :
    blockAt (padded msg) (msg.length / 64)
      = padFirst row (msg.length % 64) (BitVec.ofNat 64 (blockCount msg.length)) := by
  refine block_ext_get fun k => ?_
  have hk := k.isLt
  rw [get_blockAt, get_padFirst, Config.padThreshold]
  by_cases hlt : k.val < msg.length % 64
  · rw [if_pos hlt, getD_padded_of_lt (by omega), ← hrow k hlt, getElem!_row]
  · have hcount := blockCount_eq msg.length
    rw [if_neg hlt, getD_padded_of_ge (by omega) (by split at hcount <;> omega)]
    refine ite_congr (propext (by omega)) (fun _ => rfl) fun _ => ?_
    split at hcount
    · rw [show 64 * (msg.length / 64) + k.val - (64 * blockCount msg.length - 8) = k.val - 56 by omega]
      exact ite_congr (propext (by omega)) (fun _ => rfl) fun _ => rfl
    · rw [if_neg (by omega), if_neg (by omega)]

/-- Where the count does not fit behind the message's last bytes, the next block is the second padding block. -/
theorem blockAt_padded_second {msg : List Byte} (h : 56 ≤ msg.length % 64) :
    blockAt (padded msg) (msg.length / 64 + 1) = padSecond (BitVec.ofNat 64 (blockCount msg.length)) := by
  refine block_ext_get fun k => ?_
  have hk := k.isLt
  have hcount : blockCount msg.length = msg.length / 64 + 2 := by rw [blockCount_eq, if_neg (by omega)]
  rw [get_blockAt, get_padSecond, getD_padded_of_ge (by omega) (by omega), if_neg (by omega), Config.padThreshold]
  split
  · rw [if_neg (by omega), show 64 * (msg.length / 64 + 1) + k.val - (64 * blockCount msg.length - 8) = k.val - 56 by omega]
  · rw [if_pos (by omega)]

/-! ### A lane that has absorbed a message (R145, R173) -/

theorem hasAbsorbed_nil {s : State} (hempty : s.isEmpty = true) (hchain : s.tsReg 0 = iv) (l : Lane) : s.hasAbsorbed l [] := by
  obtain ⟨hfin, hfill, hblkcnt⟩ := (Proofs.isEmpty_iff s).mp hempty
  have hlane : laneOf s.chain l = iv1 := by rw [State.chain, hchain, laneOf_iv]
  exact ⟨hfin, by rw [hfill]; rfl, hblkcnt, hlane, fun k hk => by rw [hfill] at hk; exact absurd hk (Nat.not_lt_zero k)⟩

theorem isEmpty_of_freshHasher {s : State} (h : FreshHasher s) : s.isEmpty = true := by
  obtain ⟨-, -, hfill, hblkcnt, hfin, -⟩ := h
  exact (Proofs.isEmpty_iff s).mpr ⟨hfin, hfill, hblkcnt⟩

theorem hasAbsorbed_of_freshHasher {s : State} (h : FreshHasher s) (l : Lane) : s.hasAbsorbed l [] :=
  hasAbsorbed_nil (isEmpty_of_freshHasher h) h.1 l

theorem length_readBytes (m : List Host.Cell) (addr : Word) (n : Nat) : (readBytes m addr n).length = n := by
  rw [readBytes, List.length_map, List.length_range]

theorem getD_readBytes (m : List Host.Cell) (addr : Word) {n i : Nat} (h : i < n) :
    (readBytes m addr n).getD i 0x00#8 = readAt m addr i := by
  rw [List.getD_eq_getElem _ _ (by rwa [length_readBytes])]
  simp only [readBytes, List.getElem_map, List.getElem_range]

section
variable {s : State} {l : Lane} {msg : List Byte} (h : s.hasAbsorbed l msg)
include h

/-- The stream of R145, buffered bytes and then data, is the message with the data appended, from its last full block on. -/
theorem streamByte_of_hasAbsorbed {n p : Nat} (hp : p < s.fill.val + n) :
    s.streamByte l p = (msg ++ readBytes s.mem (s.ptr l) n).getD (64 * (msg.length / 64) + p) 0x00#8 := by
  obtain ⟨-, hfill, -, -, hrow⟩ := h
  rw [State.streamByte]
  split
  next hlt => rw [hrow p hlt, List.getD_append _ _ _ _ (by omega)]
  next hge =>
    rw [List.getD_append_right _ _ _ _ (by omega), getD_readBytes _ _ (by omega)]
    congr 1
    omega

theorem superBlock_of_hasAbsorbed (hl : s.active l = true) {n i : Nat} (hi : 64 * (i + 1) ≤ s.fill.val + n) :
    (s.superBlock i)[l] = blockAt (msg ++ readBytes s.mem (s.ptr l) n) (msg.length / 64 + i) := by
  refine block_ext_get fun k => ?_
  have hk := k.isLt
  have hbyte : ((s.superBlock i)[l])[k] = s.streamByte l (64 * i + k.val) := by simp [State.superBlock, hl]
  rw [hbyte, get_blockAt, streamByte_of_hasAbsorbed h (n := n) (by omega)]
  congr 1
  omega

/-- Compressing the stream's super-blocks takes lane l's chaining value through the blocks of the longer message. -/
theorem laneOf_chainAfter_of_hasAbsorbed (hl : s.active l = true) {n i : Nat} (hi : 64 * i ≤ s.fill.val + n) :
    laneOf (s.chainAfter i) l = chain1 (msg ++ readBytes s.mem (s.ptr l) n) (msg.length / 64 + i) := by
  induction i with
  | zero =>
    obtain ⟨-, -, -, hchain, -⟩ := h
    exact hchain.trans (chain1_append msg _ (by omega)).symm
  | succ i ih =>
    rw [State.chainAfter, laneOf_compress, laneOf_pack, superBlock_of_hasAbsorbed h hl hi, ih (by omega)]
    rfl

/-- `Absorb` appends the lane's data to its message (R145, R173). -/
theorem hasAbsorbed_absorb (hl : s.active l = true) (n : Nat) :
    (s.markAbsent.absorb n).hasAbsorbed l (msg ++ readBytes s.mem (s.ptr l) n) := by
  obtain ⟨hfin, hfill, hblkcnt, -, -⟩ := id h
  obtain ⟨hfill', hblkcnt', hchain', hrow', -, hfin', -⟩ := absorbed_absorb s.markAbsent n
  rw [fill_markAbsent] at hfill' hblkcnt' hchain' hrow'
  rw [chainAfter_markAbsent] at hchain'
  have hlength : (msg ++ readBytes s.mem (s.ptr l) n).length = msg.length + n := by rw [List.length_append, length_readBytes]
  have hblocks : (msg.length + n) / 64 = msg.length / 64 + (s.fill.val + n) / 64 := by omega
  rw [State.hasAbsorbed, hlength, hblocks]
  refine ⟨hfin'.trans hfin, by omega, ?_, ?_, fun k hk => ?_⟩
  · rw [hblkcnt', blkcnt_markAbsent, hblkcnt, BitVec.ofNat_add]
  · rw [State.chain, hchain']
    exact laneOf_chainAfter_of_hasAbsorbed h hl (by omega)
  · have hlast : 64 * ((s.fill.val + n) / 64) + k < s.fill.val + n := by omega
    have hstream := rowByte_of_active (s := s.markAbsent) hl hlast (by omega)
    have hk64 : (64 * ((s.fill.val + n) / 64) + k) % 64 = k := by omega
    simp only [hk64] at hstream
    rw [getElem!_row _ ⟨k, by omega⟩, hrow', hstream]
    exact (streamByte_of_hasAbsorbed h hlast).trans (by congr 1; omega)

/-! ### Finalization (R148 to R150, R172) -/

theorem finalCount_of_hasAbsorbed : s.finalCount = BitVec.ofNat 64 (blockCount msg.length) := by
  obtain ⟨-, hfill, hblkcnt, -, -⟩ := h
  rw [State.finalCount, hblkcnt, hfill, blockCount_eq, BitVec.ofNat_add, Config.padThreshold]
  split <;> rfl

/-- The padding blocks behind the full blocks of the message complete the reference function's run (R172). -/
theorem laneOf_finalState : laneOf s.finalState l = outX1 (chain1 (padded msg) (blockCount msg.length)) := by
  have hcount := finalCount_of_hasAbsorbed h
  obtain ⟨-, hfill, -, hchain, hrow⟩ := h
  have hlane : laneOf s.chain l = chain1 (padded msg) (msg.length / 64) := by
    rw [padded, List.append_assoc, List.append_assoc, chain1_append msg _ (by omega)]
    exact hchain
  have hfirst := blockAt_padded_first fun k hk => hrow k (hfill ▸ hk)
  rw [← hfill, ← hcount] at hfirst
  rw [State.finalState, blockCount_eq, ← hfill, Config.padThreshold]
  by_cases hlt : s.fill.val < 56
  · rw [if_pos hlt, if_pos hlt, chain1, hfirst, ← hlane, laneOf_outX, laneOf_compress, laneOf_pack]
    simp
  · have hsecond := blockAt_padded_second (msg := msg) (by omega)
    rw [← hcount] at hsecond
    rw [if_neg hlt, if_neg hlt, chain1, chain1, hfirst, hsecond, ← hlane, laneOf_outX, laneOf_compress, laneOf_compress, laneOf_pack,
      laneOf_pack]
    simp

end

/-- The digest slots hold bytes 32..63 of each lane (R154). -/
theorem readBytes_of_digestsStored {addr : Word} {S : TState} {t : State} (h : DigestsStored addr S t) (l : Lane) :
    readBytes t.mem (addr + BitVec.ofNat 64 (32 * l.val)) 32 = (laneOf S l).toList.drop 32 := by
  refine List.ext_getElem (by simp [readBytes]) fun j hj _ => ?_
  rw [length_readBytes] at hj
  have hslot := h l ⟨j, hj⟩
  have hget := get_unpack S l ⟨32 + j, by omega⟩
  rw [List.getElem_drop, Vector.getElem_toList]
  simp only [readBytes, List.getElem_map, List.getElem_range]
  exact hslot.trans hget.symm

/-- Finalizing and storing leaves at DST + 32l the Groestl256 of the message lane l has absorbed. -/
theorem readBytes_finalizeAndStore {s : State} {l : Lane} {msg : List Byte} (h : s.hasAbsorbed l msg) :
    readBytes s.finalizeAndStore.mem (s.dst + BitVec.ofNat 64 (32 * l.val)) 32 = groestl256 msg := by
  rw [readBytes_of_digestsStored (digestsStored_storeAll s _ s.finalState (mem_finalizeAndStore s)) l, laneOf_finalState h,
    groestl256]

/-! ### DIGEST (R153, R173) -/

/-- With one length in all four lanes, DIGEST hashes each lane's bytes, none as well as more. -/
theorem hasAbsorbed_hashed {s : State} {n : Word} (hlen : ∀ l, s.len l = n) (l : Lane) :
    s.hashed.hasAbsorbed l (readBytes s.mem (s.ptr l) n.toNat) := by
  have hfresh := hasAbsorbed_of_freshHasher (Proofs.freshHasher_instReset s) l
  by_cases hn : n = 0#64
  · subst hn
    rw [State.hashed, (lengths_allZero_iff s).mpr hlen]
    exact hfresh
  · have hactive : ∀ l, s.active l = true := fun l => (active_iff s l).mpr (by rwa [hlen])
    rw [State.hashed, (lengths_common_iff s n).mpr ⟨⟨l, hactive l⟩, fun l _ => hlen l⟩]
    exact hasAbsorbed_absorb hfresh (hactive l) n.toNat

/-! ### The empty message (R177) -/

/-- Computed as one lane of the engine's final state after reset, whose 256-bit words the kernel evaluates faster than the single-lane
function's blocks of bytes. -/
theorem groestl256_nil : groestl256 [] =
    [0x1a#8, 0x52#8, 0xd1#8, 0x1d#8, 0x55#8, 0x00#8, 0x39#8, 0xbe#8, 0x16#8, 0x10#8, 0x7f#8, 0x9c#8, 0x58#8, 0xdb#8, 0x9e#8, 0xbc#8]
    ++ [0xc4#8, 0x17#8, 0xf1#8, 0x6f#8, 0x73#8, 0x6a#8, 0xdb#8, 0x25#8, 0x02#8, 0x56#8, 0x71#8, 0x19#8, 0xf0#8, 0x08#8, 0x34#8, 0x67#8] := by
  have hreset : State.reset.hasAbsorbed 0 [] := hasAbsorbed_nil rfl rfl 0
  rw [groestl256, ← laneOf_finalState hreset]
  decide +kernel

end Sys2Proof.Laws
end

section
/-! PROOFS. The digests are those of the reference function (R172): of a DIGEST, of a stream, and of the empty string (R173, R177). -/

namespace Sys2Proof.Proofs

open Sys2Proof.Machine Sys2Proof.Laws

/-- Settles O51: DIGEST finalizes a hasher that has absorbed each lane's n bytes from a fresh start. -/
theorem digestIsGroestl256 : Obligations.DigestIsGroestl256 := by
  intro s n hf hlen hread hwrite
  have hlengths : s.lengths ≠ .unequal := fun hne => by
    obtain ⟨l, l', -, -, hdiff⟩ := (lengths_unequal_iff s).mp hne
    exact hdiff ((hlen l).trans (hlen l').symm)
  have hreadable : s.canAbsorb = true := (canAbsorb_iff s).mpr fun l _ => by rw [hlen]; exact hread l
  refine ⟨_, execDigest_of_admitted hf hlengths hreadable ((canWrite_iff s s.dst digest_size_le).mpr hwrite), fun l => ?_⟩
  rw [mem_instReset, ← dst_hashed]
  exact readBytes_finalizeAndStore (hasAbsorbed_hashed hlen l)

/-- Settles O52: `hasAbsorbed` holds of a fresh hasher, `Absorb` appends to the message, and the padding blocks complete it. -/
theorem streamDigestIsGroestl256 : Obligations.StreamDigestIsGroestl256 := by
  refine fun s l => ⟨fun h => hasAbsorbed_of_freshHasher h l, fun msg n h hf hlen hl hread => ?update, fun msg h hf hwrite => ?final⟩
  case update =>
    have hreadable : s.canAbsorb = true :=
      (canAbsorb_iff s).mpr fun j hj => by simpa only [len_of_common hlen hj] using hread j hj
    obtain ⟨-, -, -, hfault, -⟩ := absorb_frame s.markAbsent n.toNat
    exact ⟨_, execUpdate_of_canAbsorb hf h.1 hlen hreadable, hfault.trans hf, hasAbsorbed_absorb h hl n.toNat⟩
  case final =>
    exact ⟨_, execFinal_of_canWrite hf h.1 ((canWrite_iff s s.dst digest_size_le).mpr hwrite), readBytes_finalizeAndStore h⟩

/-- Settles O53: each command finalizes a hasher that has absorbed the empty message in every lane, and the reference function
of that message is the standard digest. -/
theorem emptyStringDigest : Obligations.EmptyStringDigest := by
  intro s hf hwrite i hi
  rw [← groestl256_nil]
  have hadmitted := (canWrite_iff s s.dst digest_size_le).mpr hwrite
  obtain ⟨hi, hempty, hchain⟩ | ⟨rfl, hlen⟩ := hi
  · obtain ⟨hfin, -, -⟩ := (isEmpty_iff s).mp hempty
    have hslots : ∀ l : Lane, readBytes s.finalizeAndStore.mem (s.dst + BitVec.ofNat 64 (32 * l.val)) 32 = groestl256 [] :=
      fun l => readBytes_finalizeAndStore (hasAbsorbed_nil hempty hchain l)
    obtain rfl | rfl := hi
    · exact ⟨_, execFinal_of_canWrite hf hfin hadmitted, hslots⟩
    · exact ⟨_, execFinalr_of_canWrite hf hfin hadmitted, hslots⟩
  · exact digestIsGroestl256 s 0#64 hf hlen (fun _ k hk => absurd hk (Nat.not_lt_zero k)) hwrite

end Sys2Proof.Proofs
end

section
/-! SUPPORT. The faults of a write to CMD: what the fields of a decoded value are (R73 to R75), the refusal of a faulted engine
(R186), and what a contract fault leaves unchanged (R185 a). -/

namespace Sys2Proof.Laws

open Sys2Proof.Machine

/-! ### The fields of a decoded value (R73 to R75) -/

/-- The opcode is in R73's table, the fields its format does not use are zero (R74), and RND is at most 9 (R75). -/
structure LegalFields (f : Fields) : Prop where
  op_mem : f.op.toNat ∈
    [0x01, 0x02, 0x03, 0x04, 0x05, 0x10, 0x11, 0x20, 0x21, 0x22, 0x23, 0x24, 0x25, 0x26, 0x30, 0x31, 0x38, 0x39]
  d_eq_zero : f.op.toNat ∈ [0x01, 0x02, 0x03, 0x04, 0x05, 0x11] → f.d = 0
  s_eq_zero : f.op.toNat ∈ [0x01, 0x02, 0x03, 0x04, 0x05, 0x10] → f.s = 0
  t_eq_zero : f.op.toNat ∉ [0x26, 0x38] → f.t = 0
  rnd_eq_zero : f.op.toNat ∉ [0x20, 0x21] → f.rnd = 0#4
  rnd_le : f.rnd.toNat ≤ 9

/-- The encoder writes legal fields for a legal command. -/
theorem legalFields_encode {i : Instr} (hi : i.wellFormed = true) : LegalFields (fieldsOf (encode i)) := by
  cases i with
  | arcp d s rnd | arcq d s rnd =>
    have hround : rnd.toNat ≤ 9 := of_decide_eq_true hi
    rw [encode, fieldsOf_assemble _ (by decide)]
    constructor <;> simp [hround]
  | reset | update | final | finalr | digest | pack | unpack | subb | shbp | shbq | mixb | xors | permp | permq | cmpr | outx =>
    rw [encode, fieldsOf_assemble _ (by decide)]
    constructor <;> simp

theorem legalFields_of_decode {v : Word} {i : Instr} (h : decode v = .ok i) : LegalFields (fieldsOf v) := by
  obtain ⟨hlegal, rfl⟩ := (decode_eq_ok_iff v i).mp h
  exact legalFields_encode hlegal

/-! ### A write to CMD (R77, R181, R186) -/

theorem writeCmd_encode {i : Instr} (hi : i.wellFormed = true) (s : State) : writeCmd (encode i) s = exec i s :=
  writeCmd_of_ok (decode_encode hi) s

theorem writeCmd_illegal {v : Word} {s : State} (hf : s.fault = .none) (h : ∀ i, decode v ≠ .ok i) :
    writeCmd v s = .next { s with fault := .illegal } :=
  (writeCmd_of_ne_ok h s).trans (illegalCommand_none hf)

/-- On a faulted engine a write to CMD has no effect at all, whatever the value. -/
theorem writeCmd_faulted {s : State} (hf : s.fault ≠ .none) (v : Word) : writeCmd v s = .next s := by
  rw [writeCmd]
  split
  · exact exec_faulted hf _
  · exact running_faulted hf _

/-! ### FAULT after a command (R185 a) -/

/-- A command on an engine without a fault either ends without a fault or in E_BUS, or it has changed nothing but FAULT. -/
theorem exec_fault_cases {s t : State} {i : Instr} (hf : s.fault = .none) (h : exec i s = .next t) :
    t.fault = .none ∨ t.fault = .bus ∨ t = { s with fault := t.fault } := by
  cases i with
  | reset => exact .inl (execReset_eq hf h ▸ hf)
  | update =>
    obtain ⟨-, rfl⟩ | ⟨-, -, rfl⟩ | ⟨-, -, rfl⟩ | ⟨n, -, -, ⟨-, rfl⟩ | ⟨-, rfl⟩⟩ := execUpdate_cases hf h
    · exact .inr (.inr rfl)
    · exact .inr (.inr rfl)
    · exact .inl hf
    · obtain ⟨-, -, -, hfault, -⟩ := absorb_frame s.markAbsent n.toNat
      exact .inl (hfault.trans hf)
    · exact .inr (.inl rfl)
  | final =>
    obtain ⟨-, rfl⟩ | ⟨-, -, rfl⟩ | ⟨-, -, rfl⟩ := execFinal_cases hf h
    · exact .inr (.inr rfl)
    · exact .inl hf
    · exact .inr (.inl rfl)
  | finalr =>
    obtain ⟨-, rfl⟩ | ⟨-, -, rfl⟩ | ⟨-, -, rfl⟩ := execFinalr_cases hf h
    · exact .inr (.inr rfl)
    · exact .inl hf
    · exact .inr (.inl rfl)
  | digest =>
    obtain ⟨-, rfl⟩ | ⟨-, -, rfl⟩ | ⟨-, -, rfl⟩ := execDigest_cases hf h
    · exact .inr (.inr rfl)
    · obtain ⟨-, -, hfault, -⟩ := hashed_frame s
      exact .inl (hfault.trans hf)
    · exact .inr (.inl rfl)
  | pack =>
    obtain ⟨-, rfl⟩ | ⟨-, rfl⟩ := execPack_cases hf h
    · exact .inl hf
    · exact .inr (.inl rfl)
  | unpack =>
    obtain ⟨-, rfl⟩ | ⟨-, rfl⟩ := execUnpack_cases hf h
    · exact .inl hf
    · exact .inr (.inl rfl)
  | arcp | arcq =>
    obtain ⟨-, rfl⟩ | ⟨-, rfl⟩ := withRound_toTs_cases hf h
    · exact .inl hf
    · exact .inr (.inr rfl)
  | subb | shbp | shbq | mixb | xors | permp | permq | cmpr | outx => exact .inl (toTs_eq hf h ▸ hf)

/-- The same of a write to CMD: a value that decodes to no command sets FAULT alone (R77). -/
theorem writeCmd_fault_cases {s t : State} {v : Word} (hf : s.fault = .none) (h : writeCmd v s = .next t) :
    t.fault = .none ∨ t.fault = .bus ∨ t = { s with fault := t.fault } := by
  by_cases hv : ∃ i, decode v = .ok i
  · obtain ⟨i, hi⟩ := hv
    exact exec_fault_cases hf ((writeCmd_of_ok hi s).symm.trans h)
  · rw [writeCmd_illegal hf (not_exists.mp hv)] at h
    cases h
    exact .inr (.inr rfl)

end Sys2Proof.Laws
end

section
/-! PROOFS. The statements about the faults: their codes (R180), E_ILLEGAL and E_LEN (R181, R183), what a contract fault leaves
(R185 a), the refusal of a faulted engine and the way out of it (R186, R190), and the order of the faults (R187). -/

namespace Sys2Proof.Proofs

open Sys2Proof.Machine Sys2Proof.Laws

/-- Settles O11: the five codes as the model defines them. -/
theorem faultCodes : Obligations.FaultCodes := ⟨rfl, rfl, rfl, rfl, rfl⟩

/-- Settles O5: a decoded value has its reserved bits zero and legal fields, so each ground of rejection excludes it. -/
theorem illegalValueFaults : Obligations.IllegalValueFaults := by
  refine ⟨fun v s => writeCmd_illegal, fun v hground i hi => ?_⟩
  obtain ⟨hupper, hlow, hhigh, -⟩ := decode_eq_ok hi
  obtain ⟨hop, hd, hs, ht, hrnd, hround⟩ := legalFields_of_decode hi
  obtain h | h | h | h | ⟨hm, h⟩ | ⟨hm, h⟩ | ⟨hm, h⟩ | ⟨hm, h⟩ | h := hground
  · exact h hupper
  · exact h hop
  · exact h hlow
  · exact h hhigh
  · exact h (hd hm)
  · exact h (hs hm)
  · exact h (ht hm)
  · exact h (hrnd hm)
  · exact absurd hround (Nat.not_le_of_lt h)

/-! ### A faulted engine (R186, R190) -/

/-- Settles O14: refusal is `writeCmd_faulted` and `exec_faulted`; register accesses do not look at FAULT. -/
theorem faultedEngineRefuses : Obligations.FaultedEngineRefuses := by
  refine fun s rest hf => ⟨fun v hp => ?command, exec_faulted hf, fun n hp => ⟨_, step_rd hp, rfl, rfl⟩,
    fun i v hp => ?operand⟩
  case command => exact (step_wr_cmd hp).trans (writeCmd_faulted (s := { s with pending := rest }) hf v)
  case operand =>
    refine ⟨_, (step_cons hp).trans (registerWrite_of_ne_zero (by omega) v _), ?_, ?_⟩
    · rw [x_writeReg, if_pos rfl]
    · rw [writeReg_frame]

theorem freshHasher_hardReset (s : State) : FreshHasher s.hardReset :=
  ⟨tsReg_hardReset_zero s, bufRow_instReset s, rfl, rfl, rfl, rfl⟩

/-- A register write leaves the FAULT of a faulted engine, to CMD or to another number. -/
theorem fault_registerWrite_faulted {s t : State} {n : Nat} {v : Word} (hf : s.fault ≠ .none)
    (h : registerWrite n v s = .next t) : t.fault = s.fault := by
  rw [registerWrite, writeCmd_faulted hf, writeReg_frame] at h
  split at h <;> cases h <;> rfl

/-- Every access but a hardware reset leaves the FAULT of a faulted engine. -/
theorem take_faulted_cases {s t : State} {a : Access} (hf : s.fault ≠ .none) (h : take a s = .next t) :
    t.fault = s.fault ∨ (t.fault = .none ∧ FreshHasher t ∧ (a = .hardReset ∨ ∃ v, a = .resetDuring v)) := by
  cases a with
  | wr n v => exact .inl (fault_registerWrite_faulted hf h)
  | busWr a bytes =>
    rw [take] at h
    split at h
    · exact .inl (fault_registerWrite_faulted hf h)
    · cases h
      exact .inl rfl
  | busRd a =>
    cases h
    rw [State.busRead]
    split <;> exact .inl rfl
  | rd | load | store =>
    cases h
    exact .inl rfl
  | hardReset =>
    cases h
    exact .inr ⟨rfl, freshHasher_hardReset s, .inl rfl⟩
  | resetDuring v =>
    cases h
    exact .inr ⟨rfl, freshHasher_hardReset _, .inr ⟨v, rfl⟩⟩

/-- Settles O15: the idle step changes nothing, and of the accesses only hardware reset touches a code that is set. -/
theorem onlyHardwareResetClearsFault : Obligations.OnlyHardwareResetClearsFault := by
  intro s t hf h hne
  cases hp : s.pending with
  | nil =>
    rw [step, hp] at h
    cases h
    exact absurd rfl hne
  | cons a rest =>
    rw [step_cons hp] at h
    obtain heq | ⟨hclear, hfresh, ha⟩ := take_faulted_cases (s := { s with pending := rest }) hf h
    · exact absurd heq hne
    · refine ⟨hclear, hfresh, rest, ?_⟩
      obtain rfl | ⟨v, rfl⟩ := ha
      · exact .inl rfl
      · exact .inr ⟨v, rfl⟩

/-! ### The order of the faults (R187) -/

section
variable {s : State} {v : Word} (hf : s.fault = .none)
include hf

/-- E_PHASE comes before every check of lengths or memory. -/
theorem writeCmd_phase (hfin : s.fin = true) (hv : v = encode .update ∨ v = encode .final ∨ v = encode .finalr) :
    writeCmd v s = .next { s with fault := .phase } := by
  obtain rfl | rfl | rfl := hv <;> rw [writeCmd_encode rfl]
  · exact execUpdate_of_fin hf hfin
  · exact execFinal_of_fin hf hfin
  · exact execFinalr_of_fin hf hfin

/-- E_LEN comes before every check of memory. -/
theorem writeCmd_len (hlen : s.lengths = .unequal) (hv : v = encode .update ∧ s.fin = false ∨ v = encode .digest) :
    writeCmd v s = .next { s with fault := .len } := by
  obtain ⟨rfl, hfin⟩ | rfl := hv <;> rw [writeCmd_encode rfl]
  · exact execUpdate_of_unequal hf hfin hlen
  · exact execDigest_of_unequal hf hlen

end

/-- Settles O16: where an earlier condition holds the write ends in its fault, so it does not end in E_BUS. -/
theorem faultPriority : Obligations.FaultPriority := by
  refine fun s => ⟨writeCmd_faulted, fun hf v => writeCmd_illegal hf, fun hf hfin v => writeCmd_phase hf hfin,
    fun hf hlen v => writeCmd_len hf hlen, fun v t hf h hbus => ?bus⟩
  have hother {e : FaultCode} (he : e ≠ .bus) : writeCmd v s ≠ .next { s with fault := e } := fun h' => by
    cases h.symm.trans h'
    exact he hbus
  have hphase (hv : v = encode .update ∨ v = encode .final ∨ v = encode .finalr) : s.fin = false :=
    Bool.eq_false_iff.mpr fun hfin => hother (by decide) (writeCmd_phase hf hfin hv)
  refine ⟨?_, hphase, fun hv hlen => hother (by decide) (writeCmd_len hf hlen ?_)⟩
  · by_contra hv
    exact hother (by decide) (writeCmd_illegal hf (not_exists.mp hv))
  · exact hv.imp_left fun hupdate => ⟨hupdate, hphase (.inl hupdate)⟩

/-! ### E_LEN (R183) -/

section
variable {s t : State} (hf : s.fault = .none) (hlen : s.lengths ≠ .unequal)
include hf hlen

theorem fault_execDigest_ne_len (h : execDigest s = .next t) : t.fault ≠ .len := by
  obtain ⟨hne, -⟩ | ⟨-, -, rfl⟩ | ⟨-, -, rfl⟩ := execDigest_cases hf h
  · exact absurd hne hlen
  · obtain ⟨-, -, hfault, -⟩ := hashed_frame s
    simp [hfault, hf]
  · simp [hasherBus]

theorem fault_execUpdate_ne_len (h : execUpdate s = .next t) : t.fault ≠ .len := by
  obtain ⟨-, rfl⟩ | ⟨-, hne, -⟩ | ⟨-, -, rfl⟩ | ⟨n, -, -, ⟨-, rfl⟩ | ⟨-, rfl⟩⟩ := execUpdate_cases hf h
  · simp
  · exact absurd hne hlen
  · simp [hf]
  · obtain ⟨-, -, -, hfault, -⟩ := absorb_frame s.markAbsent n.toNat
    simp [hfault, hf]
  · simp [updateBus]

end

/-- Settles O17: the condition is that of `State.lengths`, which UPDATE and DIGEST look at. -/
theorem lengthFault : Obligations.LengthFault := by
  refine fun s hf => ⟨fun ⟨l, l', hl, hl', hne⟩ => ?raised, fun hall => ?notRaised⟩
  case raised =>
    have hlen : s.lengths = .unequal :=
      (lengths_unequal_iff s).mpr ⟨l, l', (active_iff s l).mpr hl, (active_iff s l').mpr hl', hne⟩
    exact ⟨execDigest_of_unequal hf hlen, fun hfin => execUpdate_of_unequal hf hfin hlen⟩
  case notRaised =>
    have hlen : s.lengths ≠ .unequal := fun h => by
      obtain ⟨l, l', hl, hl', hne⟩ := (lengths_unequal_iff s).mp h
      exact hne (hall l l' ((active_iff s l).mp hl) ((active_iff s l').mp hl'))
    exact ⟨fun t => fault_execDigest_ne_len hf hlen, fun t => fault_execUpdate_ne_len hf hlen⟩

/-! ### The contract faults (R185 a) -/

/-- Settles O18: a write to CMD that does more than set FAULT ends without a fault or in E_BUS. -/
theorem contractFaultsChangeNothingElse : Obligations.ContractFaultsChangeNothingElse := by
  intro v s t hf h hcontract
  obtain hnone | hbus | heq := writeCmd_fault_cases hf h
  · simp [hnone] at hcontract
  · simp [hbus] at hcontract
  · exact heq

end Sys2Proof.Proofs
end

section
/-! PROOFS. Hardware reset (R200), and the canonical form of data memory (log 5), which every access of the host keeps. -/

namespace Sys2Proof.Proofs

open Sys2Proof.Machine Sys2Proof.Laws

/-! ### Hardware reset (R200) -/

theorem status_hardReset (s : State) : s.hardReset.status = 0x20#64 :=
  status_of_freshHasher (freshHasher_hardReset s) (fault_hardReset s)

/-- A command abandoned by reset leaves each byte as it was or as one of its stores leaves it. -/
theorem read_hardReset_breakOff (s : State) (stores : List (Word × Byte)) (a : Nat) :
    Memory.read (s.breakOff stores).hardReset.mem a = Memory.read s.mem a ∨
      ∃ c ∈ stores, c.1.toNat = a ∧ Memory.read (s.breakOff stores).hardReset.mem a = c.2 := by
  rw [mem_hardReset, mem_breakOff]
  exact (read_storeTaken s s.draws 0 s.mem stores a).imp_right fun ⟨c, hc, haddr, _, hread⟩ => ⟨c, hc, haddr, hread⟩

/-- Settles O13: both reset events end in `State.hardReset`, the second after the command in progress is broken off. -/
theorem hardwareReset : Obligations.HardwareReset := by
  refine ⟨fun s rest hp => ?between, fun s v rest hp => ?during⟩
  case between => exact ⟨_, step_cons hp, freshHasher_hardReset _, rfl, status_hardReset _, rfl, rfl⟩
  case during =>
    exact ⟨_, step_cons hp, freshHasher_hardReset _, rfl, status_hardReset _, rfl, read_hardReset_breakOff _ _⟩

/-! ### The canonical form of data memory (log 5) -/

/-- Settles O59: memory lists nothing at reset. -/
theorem resetMemoryCanonical : Obligations.ResetMemoryCanonical := rfl

section
variable {s t : State} (hs : s.Inv)
include hs

/-- A command keeps the canonical form: it stores nothing, all its stores, or a free subset of them. -/
theorem inv_exec {i : Instr} (h : exec i s = .next t) : t.Inv := by
  obtain hmem | hmem | hmem := mem_exec_cases h <;> rw [State.Inv, hmem]
  · exact hs
  · exact storeAll_wf hs _
  · exact storeTaken_wf s _ _ hs _

theorem inv_illegalCommand (h : illegalCommand s = .next t) : t.Inv := by
  obtain ⟨-, rfl⟩ | ⟨-, h⟩ := running_cases h
  · exact hs
  · cases h
    exact hs

theorem inv_writeCmd {v : Word} (h : writeCmd v s = .next t) : t.Inv := by
  by_cases hv : ∃ i, decode v = .ok i
  · obtain ⟨i, hi⟩ := hv
    exact inv_exec hs ((writeCmd_of_ok hi s).symm.trans h)
  · exact inv_illegalCommand hs ((writeCmd_of_ne_ok (not_exists.mp hv) s).symm.trans h)

/-- A register write keeps the canonical form, to CMD or to another number. -/
theorem inv_registerWrite {n : Nat} {v : Word} (h : registerWrite n v s = .next t) : t.Inv := by
  rw [registerWrite, writeReg_frame] at h
  split at h
  · exact inv_writeCmd hs h
  · cases h
    exact hs

theorem inv_busRead (a : Word) : (s.busRead a).Inv := by
  rw [busRead_frame]
  exact hs

/-- A hardware reset keeps the canonical form, and so do the stores of the command it abandons. -/
theorem inv_hardReset_breakOff (stores : List (Word × Byte)) : (s.breakOff stores).hardReset.Inv := by
  rw [State.Inv, mem_hardReset, mem_breakOff]
  exact storeTaken_wf s _ _ hs _

/-- Every access keeps the canonical form. -/
theorem inv_take {a : Access} (h : take a s = .next t) : t.Inv := by
  cases a with
  | wr n v => exact inv_registerWrite hs h
  | busWr a bytes =>
    rw [take] at h
    split at h
    · exact inv_registerWrite hs h
    · cases h
      exact hs
  | store a b =>
    cases h
    exact write_wf hs (address_lt a) b
  | busRd a =>
    cases h
    exact inv_busRead hs a
  | resetDuring v =>
    cases h
    exact inv_hardReset_breakOff hs _
  | rd | load | hardReset =>
    cases h
    exact hs

end

/-- Settles O60: the idle step changes nothing, and `inv_take` covers every access. -/
theorem stepKeepsMemoryCanonical : Obligations.StepKeepsMemoryCanonical := by
  intro s t hs h
  rw [step] at h
  split at h
  · cases h
    exact hs
  next rest _ => exact inv_take (s := { s with pending := rest }) hs h

end Sys2Proof.Proofs
end
